-- ==== Sys2Proof/Word.lean ====
section
/-! DEFINITION. The word types of RF433 CORE: bytes, 72-bit command words, 64-bit sample positions and 200-bit
record words (spec/00_scope.md R5, R9). Every one is unsigned, bit 0 least significant. -/

namespace Sys2Proof

/-- One byte of a byte transport (spec/20_memory.md R66). -/
abbrev Byte := BitVec 8

/-- A command word, 72 bits, the only length (spec/30_encoding.md R80). -/
abbrev CmdWord := BitVec 72

/-- A sample position or a width in samples (spec/00_scope.md R5, spec/20_memory.md R67). -/
abbrev Pos := BitVec 64

/-- An annotation record as the record channel carries it, 200 bits (spec/30_encoding.md R88). -/
abbrev RecordWord := BitVec 200

end Sys2Proof
end

