-- ==== Sys2Proof/Config.lean ====
section
/-! DEFINITION. What an implementation of RF433 CORE fixes. Only `address_size` is configurable and it is a register
(spec/00_scope.md R5); the protocol constants of R6 are fixed and stand as literals in the definitions that use them.
There is no free value: the spec leaves no result of a command open. LATENCY has no rule that depends on it
(spec/70_reset_and_hazards.md R278) and has no name here (log entry 7). -/

namespace Sys2Proof.Config

/-- The reset value of ADDRESS_SIZE, the source's default (spec/10_state.md R22). -/
def defaultAddressSize : BitVec 8 := 22

end Sys2Proof.Config
end

