-- ==== Sys2Proof/Syntax.lean ====
section
/-! DEFINITION. The commands of RF433 CORE (its "instructions", spec/00_scope.md R1): one constructor for each row of
spec/opcode_table.json, and the assembler's own form of them with unbounded operands (spec/30_encoding.md R86). -/

namespace Sys2Proof

/-- A command word's meaning, its operands at the widths of spec/30_encoding.md R82. An operand that does not fit its
field cannot be written here, so every `Instr` is well formed. -/
inductive Instr where
  /-- SETRATE, spec/44_session_control.md R210: the sample rate in Hz. -/
  | setrate (rate : BitVec 32)
  /-- SETASIZE, spec/44_session_control.md R211: `address_size`. -/
  | setasize (size : BitVec 8)
  /-- START, spec/44_session_control.md R212. -/
  | start
  /-- EDGE, spec/41_pulse_classifier.md R120: the edge's sample position and the level the line moves to. -/
  | edge (pos : Pos) (lvl : Bool)
  /-- EOS, spec/44_session_control.md R213. -/
  | eos
deriving DecidableEq, Repr

/-- A command as an assembly line writes it, its operands plain numbers (spec/30_encoding.md R86). -/
inductive AsmCmd where
  | setrate (rate : Nat)
  | setasize (size : Nat)
  | start
  | edge (pos lvl : Nat)
  | eos
deriving DecidableEq, Repr

end Sys2Proof
end

