-- ==== Sys2Proof/Machine/State.lean ====
section
/-! DEFINITION. The state of RF433 CORE as plain data: the registers of spec/10_state.md R20, what its channels hold
(spec/20_memory.md R60 to R65), whose turn it is, and the state after reset (spec/70_reset_and_hazards.md R270). -/

namespace Sys2Proof.Machine

/-- The values RUN_STATE holds; the code 3 is never held (spec/10_state.md R23). -/
inductive RunState where
  /-- Configuration accepted, no decode in progress. -/
  | config
  /-- A decode session is in progress. -/
  | run
  /-- A fault was taken; only reset leaves it. -/
  | fault
deriving DecidableEq, Repr

/-- The values FAULT_CODE holds; the codes 6 and 7 are never written (spec/10_state.md R24). -/
inductive FaultCode where
  | none
  | configError
  | malformedOrder
  | malformedLevel
  | illegalCommand
  | sequenceError
deriving DecidableEq, Repr

/-- The kinds of annotation record (spec/30_encoding.md R89). -/
inductive Kind where
  | time
  | pilot
  | lambda
  | bit
  | address
  | btn
  | anti
deriving DecidableEq, Repr

/-- An annotation record's fields; its channel follows from its kind (spec/30_encoding.md R88). -/
structure Record where
  kind : Kind
  /-- START, the inclusive start sample. -/
  start : Pos
  /-- END, the exclusive end sample. -/
  stop : Pos
  payload : BitVec 64
deriving DecidableEq, Repr

/-- One turn of an agent outside the block, the one thing that lets a step do something (log entry 1). -/
inductive Turn where
  /-- The host offers the word it presents on the command channel (spec/20_memory.md R61). -/
  | host
  /-- The consumer takes the oldest record (spec/20_memory.md R62). -/
  | consumer
  /-- The reset input is asserted and released (spec/20_memory.md R65); afterwards the host has these words to
  present (log entry 2). -/
  | reset (cmds : List CmdWord)
deriving DecidableEq, Repr

/-- "The block's complete state": the registers of spec/10_state.md R20, in its order. -/
@[ext]
structure Regs where
  /-- SAMPLE_RATE in Hz, 0 for not supplied (R21). -/
  sampleRate : BitVec 32
  /-- ADDRESS_SIZE (R22). -/
  addressSize : BitVec 8
  /-- RUN_STATE (R23). -/
  runState : RunState
  /-- FAULT_CODE (R24). -/
  faultCode : FaultCode
  /-- FAULT_CMD (R25). -/
  faultCmd : CmdWord
  /-- SEEDED (R26). -/
  seeded : Bool
  /-- LAST_POS (R27). -/
  lastPos : Pos
  /-- LAST_LVL (R28). -/
  lastLvl : Bool
  /-- IN_FRAME (R29). -/
  inFrame : Bool
  /-- BIT_COUNT (R30). -/
  bitCount : BitVec 5
  /-- SYNC_W, the width of the last sync pulse, which holds lambda exactly (R31). -/
  syncW : Pos
  /-- ADDR_BUF (R32). -/
  addrBuf : BitVec 28
  /-- ADDR_LEN (R33). -/
  addrLen : BitVec 5
  /-- FRAME_START (R34). -/
  frameStart : Pos
  /-- ADDR_START (R35). -/
  addrStart : Pos
  /-- LAST_BIT_END (R36). -/
  lastBitEnd : Pos
  /-- BTN_START (R37). -/
  btnStart : Pos
  /-- ANTI_START (R38). -/
  antiStart : Pos
deriving DecidableEq, Repr

/-- The registers, what the two channels hold, and the agents outside (log entry 1). -/
@[ext]
structure State extends Regs where
  /-- The records emitted and not yet taken, oldest first (spec/20_memory.md R62). -/
  recOut : List Record
  /-- The words the host has still to hand over, the presented one first (spec/20_memory.md R61). -/
  cmdIn : List CmdWord
  /-- Whose turn it is, in order. -/
  turns : List Turn
  /-- The records the consumer has taken, oldest first: a run's observation
  (spec/70_reset_and_hazards.md R280), kept over a reset turn (DESIGN CHOICE, log entry 17). -/
  taken : List Record
deriving DecidableEq, Repr

/-- The reset values of spec/10_state.md R20 and spec/70_reset_and_hazards.md R270. -/
def Regs.reset : Regs where
  sampleRate := 0
  addressSize := Config.defaultAddressSize
  runState := .config
  faultCode := .none
  faultCmd := 0
  seeded := false
  lastPos := 0
  lastLvl := false
  inFrame := false
  bitCount := 0
  syncW := 0
  addrBuf := 0
  addrLen := 0
  frameStart := 0
  addrStart := 0
  lastBitEnd := 0
  btnStart := 0
  antiStart := 0

/-- The machine right after reset: every register at its reset value, nothing on either channel and nobody's turn. -/
def State.reset : State where
  toRegs := Regs.reset
  recOut := []
  cmdIn := []
  turns := []
  taken := []

/-- Why a step would stop with a Lean fault. It has no constructor: every fault of spec/60_exceptions.md is fault
ENTRY, which the model takes as a next state, so nobody raises one (safe, log entry 12). -/
inductive Fault where
deriving DecidableEq, Repr

/-- Why a step would be refused. -/
inductive Refusal where
  /-- Raised by an arm of `exec` for an instruction that has no meaning yet; no arm does (safe, log entry 12). -/
  | notModelled (mnemonic : String)
deriving DecidableEq, Repr

end Sys2Proof.Machine
end

