-- ==== Sys2Proof/Machine/Operands.lean ====
section
/-! DEFINITION. The operand of the Pulse Classifier: the pulse that an EDGE's operands form with the last-edge memory
(spec/41_pulse_classifier.md R122, R123). -/

namespace Sys2Proof.Machine

/-- A pulse, formed and used within one EDGE command and never stored (spec/41_pulse_classifier.md R122). -/
structure Pulse where
  start : Pos
  stop : Pos
  /-- `pulse_value` (R123): true for a high pulse, ended by a falling edge. -/
  value : Bool
deriving DecidableEq, Repr

/-- The width in samples, `end - start` (spec/41_pulse_classifier.md R122); a formed pulse has its end above its
start (R124), so the subtraction does not wrap. -/
def Pulse.width (p : Pulse) : Pos := p.stop - p.start

/-- The pulse between the last edge and this one (spec/41_pulse_classifier.md R122), its value the complement of the
level the line moves to (R123). -/
def pulseOf (pos : Pos) (lvl : Bool) (r : Regs) : Pulse where
  start := r.lastPos
  stop := pos
  value := !lvl

end Sys2Proof.Machine
end

