-- ==== Sys2Proof/Machine/Classifier.lean ====
section
/-! DEFINITION. The Pulse Classifier (spec/41_pulse_classifier.md R126 to R131). Every comparison is exact, on numbers
with no wrap-around (spec/00_scope.md R9; DEDUCED, safe, log entry 10). -/

namespace Sys2Proof.Machine

/-- The class of a pulse (spec/41_pulse_classifier.md R126). -/
inductive PulseClass where
  | sync
  | bit1
  | bit0
  | reject
  | ignore
deriving DecidableEq, Repr

/-- `sync_window(width)` of spec/41_pulse_classifier.md R127, both bounds exclusive. -/
def syncWindow (sampleRate : BitVec 32) (width : Pos) : Bool :=
  decide (92 * sampleRate.toNat < 10000 * width.toNat) && decide (10000 * width.toNat < 138 * sampleRate.toNat)

/-- `band(width)` of spec/41_pulse_classifier.md R128, all bounds exclusive; SAMPLE_RATE is not read. -/
def band (syncW width : Pos) : PulseClass :=
  if syncW.toNat < 46 * width.toNat ∧ 46 * width.toNat < 3 * syncW.toNat then .bit1
  else if 3 * syncW.toNat < 46 * width.toNat ∧ 46 * width.toNat < 5 * syncW.toNat then .bit0
  else .reject

/-- `classify(pv, width)` of spec/41_pulse_classifier.md R129. -/
def classify (p : Pulse) (r : Regs) : PulseClass :=
  if r.inFrame = false then
    if p.value = false ∧ syncWindow r.sampleRate p.width = true then .sync else .ignore
  else
    if p.value = true ∧ r.bitCount.toNat < 29 then band r.syncW p.width else .ignore

/-- The sync guard, width above four lambda, which holds for every width of at least one sample
(spec/41_pulse_classifier.md R131; DEDUCED, safe, log entry 6). -/
def syncGuard (width : Pos) : Bool := decide (23 * width.toNat > 4 * width.toNat)

end Sys2Proof.Machine
end

