-- ==== Sys2Proof/WellFormed.lean ====
section
/-! DEFINITION. What is well formed: which 72-bit words are legal commands (spec/30_encoding.md R83, by its match and
mask pairs, independently of the decoder's fields) and which assembly operands fit their fields (R86). -/

namespace Sys2Proof

/-- A row of the match and mask table of spec/30_encoding.md R83. -/
structure EncodingRow where
  mask : CmdWord
  value : CmdWord
deriving DecidableEq, Repr

/-- The five rows of spec/30_encoding.md R83, in its order: SETRATE, SETASIZE, START, EDGE, EOS. -/
def encodingTable : List EncodingRow :=
  [ ⟨0xFFFFFFFFFF00000000#72, 0x100000000000000000#72⟩,
    ⟨0xFFFFFFFFFFFFFFFF00#72, 0x200000000000000000#72⟩,
    ⟨0xFFFFFFFFFFFFFFFFFF#72, 0x300000000000000000#72⟩,
    ⟨0xFE0000000000000000#72, 0x400000000000000000#72⟩,
    ⟨0xFFFFFFFFFFFFFFFFFF#72, 0x500000000000000000#72⟩ ]

/-- The word agrees with the row on every bit of the row's mask. -/
def EncodingRow.covers (r : EncodingRow) (w : CmdWord) : Bool := w &&& r.mask == r.value

/-- `legal(w)` of spec/30_encoding.md R83: some row covers the word. -/
def legal (w : CmdWord) : Bool := encodingTable.any fun r => r.covers w

/-- Every operand fits its field; one that does not is an assembly error, not an encoding
(spec/30_encoding.md R86). -/
def AsmCmd.fits : AsmCmd → Bool
  | .setrate rate => decide (rate < 2 ^ 32)
  | .setasize size => decide (size < 2 ^ 8)
  | .start => true
  | .edge pos lvl => decide (pos < 2 ^ 64) && decide (lvl < 2)
  | .eos => true

end Sys2Proof
end

