-- ==== Sys2Proof/Decode.lean ====
section
/-! DEFINITION. Decoding a command word by its fields (spec/30_encoding.md R80 to R84), total and rejecting by name,
the encoder (R85), the byte order of a byte transport (spec/20_memory.md R66) and the assembler's last step (R86). -/

namespace Sys2Proof

/-- Why a word is not a legal command (spec/30_encoding.md R84). Every one of them raises ILLEGAL_COMMAND
(spec/60_exceptions.md R244); `wrongLength` can arise only before a word exists, on a byte transport (R66). -/
inductive DecodeReject where
  /-- OP is 0x0 or 0x6..0xF. -/
  | reservedOpcode
  /-- RSV is not zero. -/
  | reservedBits
  /-- A must-be-zero bit of the opcode's row is not zero. -/
  | mustBeZero
  /-- A byte transport delivered other than 9 bytes. -/
  | wrongLength
deriving DecidableEq, Repr

/-- OP, bits [71:68] (spec/30_encoding.md R80). -/
def wordOp (w : CmdWord) : BitVec 4 := w.extractLsb' 68 4

/-- RSV, bits [67:65]. -/
def wordRsv (w : CmdWord) : BitVec 3 := w.extractLsb' 65 3

/-- L, bit [64]. -/
def wordLvl (w : CmdWord) : Bool := w.getLsbD 64

/-- D, bits [63:0]. -/
def wordData (w : CmdWord) : BitVec 64 := w.extractLsb' 0 64

/-- The instruction of a word if its must-be-zero bits are zero. -/
def orMustBeZero (zero : Bool) (i : Instr) : Except DecodeReject Instr :=
  if zero then .ok i else .error .mustBeZero

/-- The command a word stands for, by the operand fields and must-be-zero bits of spec/30_encoding.md R82. -/
def decode (w : CmdWord) : Except DecodeReject Instr :=
  if wordRsv w ≠ 0 then .error .reservedBits
  else if wordOp w = 0x1 then
    orMustBeZero (!wordLvl w && w.extractLsb' 32 32 == 0) (.setrate (w.extractLsb' 0 32))
  else if wordOp w = 0x2 then
    orMustBeZero (!wordLvl w && w.extractLsb' 8 56 == 0) (.setasize (w.extractLsb' 0 8))
  else if wordOp w = 0x3 then
    orMustBeZero (!wordLvl w && wordData w == 0) .start
  else if wordOp w = 0x4 then
    .ok (.edge (wordData w) (wordLvl w))
  else if wordOp w = 0x5 then
    orMustBeZero (!wordLvl w && wordData w == 0) .eos
  else .error .reservedOpcode

/-- The word of the field values: OP, RSV zero, L, D from the top down (spec/30_encoding.md R85). -/
def assembleWord (op : BitVec 4) (lvl : Bool) (data : BitVec 64) : CmdWord :=
  op ++ 0#3 ++ BitVec.ofBool lvl ++ data

/-- The command word of an instruction (spec/30_encoding.md R81, R82, R85). -/
def encode : Instr → CmdWord
  | .setrate rate => assembleWord 0x1 false (rate.setWidth 64)
  | .setasize size => assembleWord 0x2 false (size.setWidth 64)
  | .start => assembleWord 0x3 false 0
  | .edge pos lvl => assembleWord 0x4 lvl pos
  | .eos => assembleWord 0x5 false 0

/-- `n` bytes of a number, byte `i` holding bits [8i+7:8i] (spec/20_memory.md R66). -/
def leBytes : Nat → Nat → List Byte
  | 0, _ => []
  | n + 1, v => BitVec.ofNat 8 v :: leBytes n (v / 256)

/-- The number whose little-endian bytes these are. -/
def leValue : List Byte → Nat
  | [] => 0
  | b :: bs => b.toNat + 256 * leValue bs

/-- A command word's 9 bytes on a byte transport (spec/20_memory.md R66). -/
def cmdBytes (w : CmdWord) : List Byte := leBytes 9 w.toNat

/-- The command in a byte transport's bytes, whatever the bytes are. -/
def decodeBytes (bs : List Byte) : Except DecodeReject Instr :=
  if bs.length = 9 then decode (BitVec.ofNat 72 (leValue bs)) else .error .wrongLength

/-- The command word of an assembly command, none where an operand does not fit its field
(spec/30_encoding.md R86). -/
def AsmCmd.word? (c : AsmCmd) : Option CmdWord :=
  if c.fits then
    some <| encode <| match c with
      | .setrate rate => .setrate (BitVec.ofNat 32 rate)
      | .setasize size => .setasize (BitVec.ofNat 8 size)
      | .start => .start
      | .edge pos lvl => .edge (BitVec.ofNat 64 pos) (lvl == 1)
      | .eos => .eos
  else none

/-- The 72-bit word that the low `nbits` bits of `w` stand for, every higher bit zero. -/
def tableWord (nbits w : Nat) : CmdWord := BitVec.ofNat 72 (w % 2 ^ nbits)

/-- The instruction of the bits `w` as spec/opcode_table.json numbers them, read through the byte transport. -/
def decodeTableWord (nbits w : Nat) : Option Instr :=
  match decodeBytes (cmdBytes (tableWord nbits w)) with
  | .ok i => some i
  | .error _ => none

end Sys2Proof
end

