-- ==== Sys2Proof/Machine/Records.lean ====
section
/-! DEFINITION. The 200-bit annotation record (spec/30_encoding.md R87 to R91): kind codes, channels, payloads, the
record word and its bytes on a byte transport (spec/20_memory.md R66). -/

namespace Sys2Proof.Machine

/-- KIND (spec/30_encoding.md R89). -/
def Kind.code : Kind → BitVec 4
  | .time => 0
  | .pilot => 1
  | .lambda => 2
  | .bit => 3
  | .address => 4
  | .btn => 5
  | .anti => 6

/-- CHAN: 0 time, 1 3bit, 2 field (spec/30_encoding.md R89). -/
def Kind.chan : Kind → BitVec 2
  | .time => 0
  | .pilot => 1
  | .lambda => 2
  | .bit => 1
  | .address => 2
  | .btn => 2
  | .anti => 2

/-- The word `Record(kind, start, end, payload)` of spec/30_encoding.md R88. -/
def Record.word (r : Record) : RecordWord :=
  r.kind.code ++ 0#2 ++ r.kind.chan ++ r.start ++ r.stop ++ r.payload

/-- A record's 25 bytes on a byte transport (spec/20_memory.md R66). -/
def Record.bytes (r : Record) : List Byte := leBytes 25 r.word.toNat

/-- BIT's payload: bit 0 is the bit value (spec/30_encoding.md R90). -/
def bitPayload (b : Bool) : BitVec 64 := BitVec.setWidth 64 (BitVec.ofBool b)

/-- ADDRESS's payload: the address value in [27:0], its length in [32:28] (spec/30_encoding.md R91), which is also
status word 0x05 (spec/10_state.md R41). -/
def addressPayload (len : BitVec 5) (buf : BitVec 28) : BitVec 64 := 0#31 ++ len ++ buf

end Sys2Proof.Machine
end

