-- ==== Sys2Proof/Machine/Ops.lean ====
section
/-! DEFINITION. The shared operations: emitting a record, fault entry, the checks that stand before every command's own
(spec/60_exceptions.md R248), the register writes of the commands, and the three turns of the outside agents. -/

namespace Sys2Proof.Machine

/-! ### Records and faults -/

/-- `emit Record(kind, start, end, payload)`: the record joins the end of the record channel (spec/00_scope.md R10,
spec/20_memory.md R62). -/
def emit (kind : Kind) (start stop : Pos) (payload : BitVec 64) (s : State) : State :=
  { s with recOut := s.recOut ++ [⟨kind, start, stop, payload⟩] }

/-- Fault entry (spec/60_exceptions.md R247): the code, the command word and the FAULT state, and nothing else. There
is no return from a fault but reset (R249). -/
def raiseFault (code : FaultCode) (w : CmdWord) (s : State) : State :=
  { s with faultCode := code, faultCmd := w, runState := .fault }

/-- An accepted word that is not legal: dropped in FAULT (spec/44_session_control.md R215), otherwise
ILLEGAL_COMMAND before anything else is done (spec/30_encoding.md R83, spec/60_exceptions.md R244). -/
def illegalCommand (w : CmdWord) (s : State) : State :=
  if s.runState = .fault then s else raiseFault .illegalCommand w s

/-- The checks before a legal command's own, in the order of spec/60_exceptions.md R248: dropped in FAULT (R215),
SEQUENCE_ERROR outside the RUN_STATE that accepts it (spec/44_session_control.md R214), else the command's body. -/
def whenAccepted (needs : RunState) (w : CmdWord) (body : State → State) (s : State) : State :=
  if s.runState = .fault then s
  else if s.runState = needs then body s
  else raiseFault .sequenceError w s

/-! ### Register writes of the commands -/

/-- SAMPLE_RATE <- rate (spec/44_session_control.md R210). -/
def setSampleRate (rate : BitVec 32) (s : State) : State := { s with sampleRate := rate }

/-- ADDRESS_SIZE <- size (spec/44_session_control.md R211). -/
def setAddressSize (size : BitVec 8) (s : State) : State := { s with addressSize := size }

/-- What START writes: every classifier and assembler register cleared, then RUN (spec/44_session_control.md R212). -/
def openSession (s : State) : State :=
  { s with
    seeded := false, lastPos := 0, lastLvl := false
    inFrame := false, bitCount := 0, syncW := 0
    addrBuf := 0, addrLen := 0
    frameStart := 0, addrStart := 0, lastBitEnd := 0, btnStart := 0, antiStart := 0
    runState := .run }

/-- What EOS writes: RUN_STATE alone (spec/44_session_control.md R213; log entry 16). -/
def closeSession (s : State) : State := { s with runState := .config }

/-- The last-edge memory follows an accepted edge (spec/41_pulse_classifier.md R133). -/
def latchEdge (pos : Pos) (lvl : Bool) (s : State) : State := { s with lastPos := pos, lastLvl := lvl }

/-- The first edge of a session seeds the last-edge memory (spec/41_pulse_classifier.md R121). -/
def seedEdge (pos : Pos) (lvl : Bool) (s : State) : State :=
  { s with lastPos := pos, lastLvl := lvl, seeded := true }

/-! ### The outside agents' turns -/

/-- The host offers its presented word. The block accepts it only when every record of the previous command has been
taken (spec/20_memory.md R61); otherwise the word stays presented and nothing happens (R62,
spec/70_reset_and_hazards.md R276; log entries 8 and 15). -/
def offerCommand (s : State) : State × Option CmdWord :=
  match s.recOut, s.cmdIn with
  | [], w :: ws => ({ s with cmdIn := ws }, some w)
  | _, _ => (s, none)

/-- The consumer takes the oldest record, if one is presented (spec/20_memory.md R62; log entry 15). -/
def takeRecord (s : State) : State :=
  match s.recOut with
  | [] => s
  | r :: rs => { s with recOut := rs, taken := s.taken ++ [r] }

/-- The reset action (spec/70_reset_and_hazards.md R270): every register at its reset value. Records not yet taken
are discarded and a word presented and not accepted is not accepted (R271); `cmds` is what the host presents after
the reset (DESIGN CHOICE, log entry 2). The records already taken stay with the consumer, although R280 speaks only of
runs from the reset state (DESIGN CHOICE, log entry 17). -/
def resetAction (cmds : List CmdWord) (s : State) : State :=
  { s with toRegs := Regs.reset, recOut := [], cmdIn := cmds }

/-- The next turn, and the word the block accepted in it, if any. With no turn left nothing happens: the block waits,
for ever if need be (spec/60_exceptions.md R255, spec/70_reset_and_hazards.md R279). -/
def nextCommand (s : State) : State × Option CmdWord :=
  match s.turns with
  | [] => (s, none)
  | .host :: ts => offerCommand { s with turns := ts }
  | .consumer :: ts => (takeRecord { s with turns := ts }, none)
  | .reset cmds :: ts => (resetAction cmds { s with turns := ts }, none)

/-- A word placed so that the very next turn accepts it: presented first, with the record channel empty, on a turn of
the host. -/
def presentNext (w : CmdWord) (s : State) : State :=
  { s with recOut := [], cmdIn := w :: s.cmdIn, turns := .host :: s.turns }

end Sys2Proof.Machine
end

