-- ==== Sys2Proof/Machine/FrameAssembler.lean ====
section
/-! DEFINITION. The Frame Assembler (spec/42_frame_assembler.md R150 to R160): one transition for each formed pulse,
row by row of its table. A register write keeps the low bits that fit (log entry 5). -/

namespace Sys2Proof.Machine

/-- IDLE, Sync (spec/42_frame_assembler.md R151): lambda, the guard, the counters and boundaries, three records. -/
def beginFrame (p : Pulse) (s : State) : State :=
  emit .lambda p.start p.stop p.width <|
  emit .pilot p.start p.stop 0 <|
  emit .time p.start p.stop p.width
  { s with
    syncW := p.width
    inFrame := if syncGuard p.width then true else s.inFrame
    bitCount := 0, addrBuf := 0, addrLen := 0
    frameStart := p.start
    addrStart := p.stop, lastBitEnd := p.stop, btnStart := p.stop, antiStart := p.stop }

/-- IN_FRAME, Reject (spec/42_frame_assembler.md R159): IN_FRAME <- 0 and nothing else (log entry 16). -/
def abandonFrame (s : State) : State := { s with inFrame := false }

/-- IN_FRAME, bit_count == 0 (spec/42_frame_assembler.md R153): the boundary marker, no bit and no record. -/
def consumeMarker (e : Pos) (s : State) : State := { s with lastBitEnd := e, bitCount := 1 }

/-- The append of data bit `k` (spec/42_frame_assembler.md R154), first received bit most significant (R162;
UNVERIFIED, log entry 9). -/
def appendBit (b : Bool) (k : Nat) (s : State) : State :=
  if k ≤ s.addressSize.toNat then
    { s with addrBuf := BitVec.ofNat 28 (s.addrBuf.toNat * 2 + b.toNat), addrLen := s.addrLen + 1 }
  else s

/-- The per-bit record and the new end of the last bit (spec/42_frame_assembler.md R155). -/
def recordBit (b : Bool) (e : Pos) (s : State) : State :=
  { emit .bit s.lastBitEnd e (bitPayload b) s with lastBitEnd := e }

/-- The ADDRESS boundary (spec/42_frame_assembler.md R156). -/
def closeAddress (e : Pos) (k : Nat) (s : State) : State :=
  if k = s.addressSize.toNat then
    { emit .address s.addrStart e (addressPayload s.addrLen s.addrBuf) s with btnStart := e }
  else s

/-- The BTN boundary, at data bit 24 whatever ADDRESS_SIZE is (spec/42_frame_assembler.md R157). -/
def closeButton (e : Pos) (k : Nat) (s : State) : State :=
  if k = 24 then { emit .btn s.btnStart e 0 s with antiStart := e } else s

/-- The advance, and completion when the count reaches 29 (spec/42_frame_assembler.md R158). -/
def advanceCount (e : Pos) (k : Nat) (s : State) : State :=
  if k + 1 = 29 then { emit .anti s.antiStart e 0 s with bitCount := 0, inFrame := false }
  else { s with bitCount := BitVec.ofNat 5 (k + 1) }

/-- A data bit, number `k` (spec/42_frame_assembler.md R154 to R158, in order). -/
def dataBit (b : Bool) (e : Pos) (k : Nat) (s : State) : State :=
  advanceCount e k <| closeButton e k <| closeAddress e k <| recordBit b e <| appendBit b k s

/-- A pulse classified as a bit: the boundary marker or a data bit. -/
def takeBit (b : Bool) (e : Pos) (s : State) : State :=
  if s.bitCount = 0 then consumeMarker e s else dataBit b e s.bitCount.toNat s

/-- `assemble(c, s, e, width)` of spec/42_frame_assembler.md R150. -/
def assemble (c : PulseClass) (p : Pulse) (s : State) : State :=
  match c with
  | .ignore => s
  | .sync => beginFrame p s
  | .reject => abandonFrame s
  | .bit1 => takeBit true p.stop s
  | .bit0 => takeBit false p.stop s

end Sys2Proof.Machine
end

