-- ==== Sys2Proof/Machine/Edge.lean ====
section
/-! DEFINITION. The meaning of EDGE (spec/41_pulse_classifier.md R120). -/

namespace Sys2Proof.Machine

/-- A later edge's pulse: the last-edge memory moves (R133), then the pulse is classified and assembled. -/
def processPulse (pos : Pos) (lvl : Bool) (s : State) : State :=
  let p := pulseOf pos lvl s.toRegs
  let t := latchEdge pos lvl s
  assemble (classify p t.toRegs) p t

/-- EDGE once accepted in RUN: the seeding edge (R121) or the checks of R124 and R125 and the pulse. -/
def deliverEdge (w : CmdWord) (pos : Pos) (lvl : Bool) (s : State) : State :=
  if s.seeded = false then
    if lvl = s.lastLvl then raiseFault .malformedLevel w s else seedEdge pos lvl s
  else if pos ≤ s.lastPos then raiseFault .malformedOrder w s
  else if lvl = s.lastLvl then raiseFault .malformedLevel w s
  else processPulse pos lvl s

/-- EDGE (spec/41_pulse_classifier.md R120), accepted in RUN. -/
def execEdge (pos : Pos) (lvl : Bool) (s : State) : Host.Outcome State Fault Refusal :=
  .next (whenAccepted .run (encode (.edge pos lvl)) (deliverEdge (encode (.edge pos lvl)) pos lvl) s)

end Sys2Proof.Machine
end

