-- ==== Sys2Proof/Machine/Session.lean ====
section
/-! DEFINITION. The meanings of SETRATE, SETASIZE, START and EOS (spec/44_session_control.md R210 to R213). A fault records the encoding
of the instruction, which is the accepted word (DEDUCED, log entry 4). -/

namespace Sys2Proof.Machine

/-- SETRATE (spec/44_session_control.md R210), accepted in CONFIG. -/
def execSetrate (rate : BitVec 32) (s : State) : Host.Outcome State Fault Refusal :=
  .next (whenAccepted .config (encode (.setrate rate)) (setSampleRate rate) s)

/-- SETASIZE (spec/44_session_control.md R211), accepted in CONFIG. -/
def execSetasize (size : BitVec 8) (s : State) : Host.Outcome State Fault Refusal :=
  .next (whenAccepted .config (encode (.setasize size)) (setAddressSize size) s)

/-- START once accepted: CONFIG_ERROR without a sample rate (spec/60_exceptions.md R241), else a new session. -/
def beginSession (w : CmdWord) (s : State) : State :=
  if s.sampleRate = 0 then raiseFault .configError w s else openSession s

/-- START (spec/44_session_control.md R212), accepted in CONFIG. -/
def execStart (s : State) : Host.Outcome State Fault Refusal :=
  .next (whenAccepted .config (encode .start) (beginSession (encode .start)) s)

/-- EOS (spec/44_session_control.md R213), accepted in RUN. -/
def execEos (s : State) : Host.Outcome State Fault Refusal :=
  .next (whenAccepted .run (encode .eos) closeSession s)

end Sys2Proof.Machine
end

