-- ==== Sys2Proof/Machine/Dispatch.lean ====
section
/-! DEFINITION. One arm for each command of spec/opcode_table.json. -/

namespace Sys2Proof.Machine

def exec (i : Instr) (s : State) : Host.Outcome State Fault Refusal :=
  match i with
  | .setrate rate => Sys2Proof.Machine.execSetrate rate s
  | .setasize size => Sys2Proof.Machine.execSetasize size s
  | .start => Sys2Proof.Machine.execStart s
  | .edge pos lvl => Sys2Proof.Machine.execEdge pos lvl s
  | .eos => Sys2Proof.Machine.execEos s

end Sys2Proof.Machine
end

