-- ==== Sys2Proof/Machine/Step.lean ====
section
/-! DEFINITION. One step: the next turn, and the command it accepted (spec/00_scope.md R7). -/

namespace Sys2Proof.Machine

/-- The next turn is served (`nextCommand`); a word accepted in it runs at once and whole (spec/20_memory.md R68): its
instruction if it is legal, ILLEGAL_COMMAND if it is not (spec/60_exceptions.md R244). -/
def step (s : State) : Host.Outcome State Fault Refusal :=
  match nextCommand s with
  | (t, none) => .next t
  | (t, some w) =>
    match decode w with
    | .ok i => exec i t
    | .error _ => .next (illegalCommand w t)

/-- The state whose next step accepts the word of these bits: presented first, on a turn of the host, with the record
channel empty so that the block is ready (spec/20_memory.md R61). -/
def State.withFetchWord (s : State) (nbits w : Nat) : State := presentNext (tableWord nbits w) s

end Sys2Proof.Machine
end

