-- ==== Sys2Proof/Machine/AsmText.lean ====
section
/-! DEFINITION. The assembler's line, host side (spec/30_encoding.md R86): one command a line, `;` comments, mnemonics
in any letter case, decimal or `0x` numbers. White space and where it may stand are the model's (log entry 14). -/

namespace Sys2Proof.Machine

/-- Why a line is an assembly error and no encoding (spec/30_encoding.md R86). -/
inductive AsmError where
  | unknownMnemonic
  /-- Operands missing, too many, or not the form the mnemonic takes. -/
  | badOperands
  /-- An operand that does not fit its field. -/
  | operandRange
deriving DecidableEq, Repr

/-- What stands before a `;` comment. -/
def stripComment (line : List Char) : List Char := line.takeWhile (· != ';')

/-- The token being read, if it holds anything. -/
def flushToken (token : List Char) : List (List Char) := if token.isEmpty then [] else [token]

/-- The line's tokens; a comma is a token of its own. -/
def tokensFrom : List Char → List Char → List (List Char)
  | [], token => flushToken token
  | c :: cs, token =>
    if c == ' ' || c == '\t' then flushToken token ++ tokensFrom cs []
    else if c == ',' then flushToken token ++ [[',']] ++ tokensFrom cs []
    else tokensFrom cs (token ++ [c])

/-- A digit's value in a base of at most 16. -/
def digitValue (base : Nat) (c : Char) : Option Nat :=
  let n := c.toNat
  let v := if 48 ≤ n ∧ n ≤ 57 then n - 48
    else if 97 ≤ n ∧ n ≤ 102 then n - 87
    else if 65 ≤ n ∧ n ≤ 70 then n - 55
    else 16
  if v < base then some v else none

/-- The rest of a number after the value read so far. -/
def digitsFrom (base : Nat) : Nat → List Char → Option Nat
  | v, [] => some v
  | v, c :: cs =>
    match digitValue base c with
    | some d => digitsFrom base (v * base + d) cs
    | none => none

/-- A number, decimal or `0x`-prefixed hexadecimal. -/
def numberOf : List Char → Option Nat
  | '0' :: 'x' :: c :: cs => digitsFrom 16 0 (c :: cs)
  | [] => none
  | c :: cs => digitsFrom 10 0 (c :: cs)

/-- The mnemonic's letters in capitals. -/
def capitals (token : List Char) : List Char := token.map Char.toUpper

/-- A command with one number. -/
def withNumber (f : Nat → AsmCmd) : List (List Char) → Except AsmError AsmCmd
  | [a] =>
    match numberOf a with
    | some n => .ok (f n)
    | none => .error .badOperands
  | _ => .error .badOperands

/-- A command with no operand. -/
def withNone (c : AsmCmd) : List (List Char) → Except AsmError AsmCmd
  | [] => .ok c
  | _ => .error .badOperands

/-- `EDGE <pos>, <lvl>`. -/
def withEdge : List (List Char) → Except AsmError AsmCmd
  | [a, [','], b] =>
    match numberOf a, numberOf b with
    | some pos, some lvl => .ok (.edge pos lvl)
    | _, _ => .error .badOperands
  | _ => .error .badOperands

/-- The command of a line, none for a line that holds no command. -/
def parseLine (line : List Char) : Except AsmError (Option AsmCmd) :=
  match tokensFrom (stripComment line) [] with
  | [] => .ok none
  | m :: operands =>
    if capitals m = ['S', 'E', 'T', 'R', 'A', 'T', 'E'] then some <$> withNumber .setrate operands
    else if capitals m = ['S', 'E', 'T', 'A', 'S', 'I', 'Z', 'E'] then some <$> withNumber .setasize operands
    else if capitals m = ['S', 'T', 'A', 'R', 'T'] then some <$> withNone .start operands
    else if capitals m = ['E', 'D', 'G', 'E'] then some <$> withEdge operands
    else if capitals m = ['E', 'O', 'S'] then some <$> withNone .eos operands
    else .error .unknownMnemonic

/-- The command word of a line; an operand that does not fit is an assembly error (spec/30_encoding.md R86). -/
def assembleLine (line : List Char) : Except AsmError (Option CmdWord) :=
  match parseLine line with
  | .error e => .error e
  | .ok none => .ok none
  | .ok (some c) =>
    match c.word? with
    | some w => .ok (some w)
    | none => .error .operandRange

end Sys2Proof.Machine
end

