-- ==== Sys2Proof/Machine/HostText.lean ====
section
/-! DEFINITION. The host's text for a record, outside the block by spec/00_scope.md R4 and read by no rule of it: the
duration formatter's contract (spec/43_duration_formatter.md R190 to R193) on exact fractions, and the fixed texts
(R195). The characters of the TIME, LAMBDA and ADDRESS texts are not in the source (log entry 13). -/

namespace Sys2Proof.Machine

/-- The formatter's bands, widest first (spec/43_duration_formatter.md R191). -/
inductive DurationBand where
  | seconds
  | milliseconds
  | microseconds
  | nanoseconds
deriving DecidableEq, Repr

/-- The frequency units (spec/43_duration_formatter.md R192). -/
inductive FreqUnit where
  | hz
  | khz
  | mhz
  | ghz
deriving DecidableEq, Repr

/-- A number as a fraction. -/
structure Fraction where
  num : Nat
  den : Nat
deriving DecidableEq, Repr

/-- What the formatter chooses before it writes digits: the band and the magnitude in it, the unit and the reciprocal
frequency in it. -/
structure Duration where
  band : DurationBand
  magnitude : Fraction
  freqUnit : FreqUnit
  frequency : Fraction
deriving DecidableEq, Repr

/-- The formatter's answer (spec/43_duration_formatter.md R190, R193). -/
inductive Formatted where
  /-- Zero seconds, or no rate to divide by: a precondition violation. -/
  | precondition
  | inBand (d : Duration)
  /-- Below the smallest threshold: the raw seconds. -/
  | raw (seconds : Fraction)
deriving DecidableEq, Repr

/-- The reciprocal frequency `rate / payload` in the band's higher unit of `hi` Hz unless it is below 1 there, else in
the lower unit of a thousandth of that (spec/43_duration_formatter.md R192). -/
def frequencyIn (payload rate : Nat) (lo hi : FreqUnit) (hiHz : Nat) : FreqUnit × Fraction :=
  if rate < hiHz * payload then (lo, ⟨rate * 1000, hiHz * payload⟩) else (hi, ⟨rate, hiHz * payload⟩)

/-- A duration of one band. -/
def durationIn (band : DurationBand) (scale payload rate : Nat) (freq : FreqUnit × Fraction) : Formatted :=
  .inBand ⟨band, ⟨scale * payload, rate⟩, freq.1, freq.2⟩

/-- `format_duration(payload / rate)`: the first band whose threshold the duration reaches
(spec/43_duration_formatter.md R191), on exact fractions. -/
def formatDuration (payload rate : Nat) : Formatted :=
  if payload = 0 ∨ rate = 0 then .precondition
  else if rate ≤ payload then durationIn .seconds 1 payload rate (.hz, ⟨rate, payload⟩)
  else if rate ≤ 10 ^ 3 * payload then
    durationIn .milliseconds (10 ^ 3) payload rate (frequencyIn payload rate .hz .khz (10 ^ 3))
  else if rate ≤ 10 ^ 6 * payload then
    durationIn .microseconds (10 ^ 6) payload rate (frequencyIn payload rate .khz .mhz (10 ^ 6))
  else if rate ≤ 10 ^ 9 * payload then
    durationIn .nanoseconds (10 ^ 9) payload rate (frequencyIn payload rate .mhz .ghz (10 ^ 9))
  else .raw ⟨payload, rate⟩

/-- The texts the source gives in full: "Pilot", the bit's digit, "BTN" and "ANTI" (spec/43_duration_formatter.md
R195); none for TIME, LAMBDA and ADDRESS, whose characters it does not give. -/
def fixedText (r : Record) : Option String :=
  match r.kind with
  | .pilot => some "Pilot"
  | .bit => some (if r.payload.getLsbD 0 then "1" else "0")
  | .btn => some "BTN"
  | .anti => some "ANTI"
  | .time => none
  | .lambda => none
  | .address => none

end Sys2Proof.Machine
end

