-- ==== Sys2Proof/Machine/Flags.lean ====
section
/-! DEFINITION. What the flags and mode registers say: the codes of RUN_STATE and FAULT_CODE, the fault output and the
assembler's phases (spec/10_state.md R23, R24, R39, R40, spec/20_memory.md R64). -/

namespace Sys2Proof.Machine

/-- RUN_STATE's code (spec/10_state.md R23). -/
def RunState.code : RunState → BitVec 2
  | .config => 0
  | .run => 1
  | .fault => 2

/-- FAULT_CODE's code (spec/10_state.md R24, spec/60_exceptions.md R240). -/
def FaultCode.code : FaultCode → BitVec 3
  | .none => 0
  | .configError => 1
  | .malformedOrder => 2
  | .malformedLevel => 3
  | .illegalCommand => 4
  | .sequenceError => 5

/-- The fault output, a level equal to `RUN_STATE == 2` (spec/20_memory.md R64). -/
def faultOutput (r : Regs) : Bool := r.runState == .fault

/-- The phases that are held between commands (spec/10_state.md R39). -/
inductive Phase where
  | idle
  | inFrame
deriving DecidableEq, Repr

/-- The phase IN_FRAME encodes (spec/10_state.md R39). -/
def phase (r : Regs) : Phase := if r.inFrame then .inFrame else .idle

end Sys2Proof.Machine
end

