-- ==== Sys2Proof/Machine/StatusPort.lean ====
section
/-! DEFINITION. The status port (spec/10_state.md R41, R42, spec/20_memory.md R63): a function of the registers alone,
so a read has no side effect. -/

namespace Sys2Proof.Machine

/-- Status word 0x00: RUN_STATE [1:0], SEEDED [2], LAST_LVL [3], IN_FRAME [4], BIT_COUNT [9:5], FAULT_CODE [18:16]
(spec/10_state.md R41). -/
def stateWord (r : Regs) : BitVec 64 :=
  0#45 ++ r.faultCode.code ++ 0#6 ++ r.bitCount ++ BitVec.ofBool r.inFrame ++ BitVec.ofBool r.lastLvl
    ++ BitVec.ofBool r.seeded ++ r.runState.code

/-- The word the status port returns for an index (spec/10_state.md R41). -/
def statusWord (r : Regs) (index : BitVec 5) : BitVec 64 :=
  match index.toNat with
  | 0x00 => stateWord r
  | 0x01 => r.sampleRate.setWidth 64
  | 0x02 => r.addressSize.setWidth 64
  | 0x03 => r.lastPos
  | 0x04 => r.syncW
  | 0x05 => addressPayload r.addrLen r.addrBuf
  | 0x06 => r.frameStart
  | 0x07 => r.addrStart
  | 0x08 => r.lastBitEnd
  | 0x09 => r.btnStart
  | 0x0A => r.antiStart
  | 0x0B => r.faultCmd.extractLsb' 0 64
  | 0x0C => (r.faultCmd.extractLsb' 64 8).setWidth 64
  | _ => 0

/-- A read that overlaps a command's processing: the word before it or the word after it, for each index, which one
is not specified (spec/10_state.md R42); `sawNew` is that open choice (log entry 3). -/
def statusDuring (before after : Regs) (sawNew : BitVec 5 → Bool) (index : BitVec 5) : BitVec 64 :=
  if sawNew index then statusWord after index else statusWord before index

end Sys2Proof.Machine
end

