-- ==== Sys2Proof/Safety.lean ====
section
/-! DEFINITION. The terms in which claims about runs are made: the invariants of spec/10_state.md R43, the fault a word
must take by the order of spec/60_exceptions.md R248, when a word is offered and when a run has ended
(spec/70_reset_and_hazards.md R280). No definition of the machine uses them. -/

namespace Sys2Proof.Machine

/-! ### Invariants -/

/-- The seven invariants of spec/10_state.md R43, in its order. -/
abbrev RegsConsistent (r : Regs) : Prop :=
  r.bitCount.toNat ≤ 28 ∧
  (r.faultCode ≠ .none ↔ r.runState = .fault) ∧
  (r.addrLen.toNat ≤ 28 ∧ r.addrBuf.toNat < 2 ^ r.addrLen.toNat) ∧
  (r.runState = .run → r.addrLen.toNat ≤ r.addressSize.toNat) ∧
  (r.runState = .run ∧ r.inFrame = true →
    r.addrLen.toNat = min (max (r.bitCount.toNat - 1) 0) r.addressSize.toNat ∧
    92 * r.sampleRate.toNat < 10000 * r.syncW.toNat ∧ 10000 * r.syncW.toNat < 138 * r.sampleRate.toNat) ∧
  (r.seeded = false → r.inFrame = false ∧ r.bitCount = 0) ∧
  (r.inFrame = true → r.seeded = true ∧ r.frameStart < r.addrStart ∧ r.addrStart ≤ r.lastBitEnd ∧
    r.lastBitEnd ≤ r.lastPos)

/-- What single rules add to R43: no fault word without a fault (spec/10_state.md R25), a session has a sample rate
(spec/44_session_control.md R212), the initial pin hint until the first edge (spec/10_state.md R27, R28), and the
frame's field boundaries in order (R37, R38). -/
abbrev SessionConsistent (r : Regs) : Prop :=
  (r.faultCode = .none → r.faultCmd = 0) ∧
  (r.runState = .run → r.sampleRate ≠ 0) ∧
  (r.runState = .run ∧ r.seeded = false → r.lastLvl = false ∧ r.lastPos = 0) ∧
  (r.inFrame = true → r.addrStart ≤ r.btnStart ∧ r.btnStart ≤ r.lastBitEnd ∧
    r.addrStart ≤ r.antiStart ∧ r.antiStart ≤ r.lastBitEnd)

/-- A command's records: at most three (spec/20_memory.md R62), each with START ≤ END
(spec/30_encoding.md R88). -/
abbrev RecordsOrdered (s : State) : Prop :=
  s.recOut.length ≤ 3 ∧ ∀ r ∈ s.recOut, r.start ≤ r.stop

/-- Everything the machine keeps between two steps. -/
abbrev Consistent (s : State) : Prop :=
  RegsConsistent s.toRegs ∧ SessionConsistent s.toRegs ∧ RecordsOrdered s

/-! ### Turns and faults -/

/-- It is the host's turn, it presents `w`, and the block is ready for it (spec/20_memory.md R61). -/
abbrev Offered (s : State) (w : CmdWord) (ws : List CmdWord) (ts : List Turn) : Prop :=
  s.turns = .host :: ts ∧ s.recOut = [] ∧ s.cmdIn = w :: ws

/-- The RUN_STATE that accepts an opcode (spec/44_session_control.md R214). -/
def acceptsIn (op : BitVec 4) : RunState := if op = 0x4 ∨ op = 0x5 then .run else .config

/-- The RUN_STATE that performs a command (spec/44_session_control.md R214). -/
def homeState : Instr → RunState
  | .setrate _ => .config
  | .setasize _ => .config
  | .start => .config
  | .edge _ _ => .run
  | .eos => .run

/-- The fault a word takes, by the order of checks of spec/60_exceptions.md R248 over the word's fields. -/
def faultFor (w : CmdWord) (r : Regs) : Option FaultCode :=
  if r.runState = .fault then none
  else if legal w = false then some .illegalCommand
  else if r.runState ≠ acceptsIn (wordOp w) then some .sequenceError
  else if wordOp w = 0x3 ∧ r.sampleRate = 0 then some .configError
  else if wordOp w = 0x4 then
    if r.seeded = false then if wordLvl w = r.lastLvl then some .malformedLevel else none
    else if wordData w ≤ r.lastPos then some .malformedOrder
    else if wordLvl w = r.lastLvl then some .malformedLevel
    else none
  else none

/-- A run has ended: every word is processed and every record taken (spec/70_reset_and_hazards.md R280). -/
abbrev RunEnded (s : State) : Prop := s.cmdIn = [] ∧ s.recOut = []

/-- A run that ended in a fault (spec/70_reset_and_hazards.md R280). -/
abbrev EndedInFault (s : State) : Prop := RunEnded s ∧ s.runState = .fault

/-! ### Edges and streams of edges -/

/-- An edge that forms a pulse: in RUN, not the first of its session, later than the last one and of the other level
(spec/41_pulse_classifier.md R122, R124, R125). -/
abbrev FormsPulse (s : State) (pos : Pos) (lvl : Bool) : Prop :=
  s.runState = .run ∧ s.seeded = true ∧ s.lastPos < pos ∧ lvl = !s.lastLvl

/-- The samples from the last edge to this position. -/
def samplesTo (s : State) (pos : Pos) : Nat := pos.toNat - s.lastPos.toNat

/-- `46 * width` lies in the band of the bit, by the numbers of spec/41_pulse_classifier.md R128. -/
abbrev InBitBand (syncW : Pos) (width : Nat) (bit : Bool) : Prop :=
  if bit then syncW.toNat < 46 * width ∧ 46 * width < 3 * syncW.toNat
  else 3 * syncW.toNat < 46 * width ∧ 46 * width < 5 * syncW.toNat

/-- EDGE commands one after another, at the level of `exec` (no record is taken between them). -/
def deliverEdges : List (Pos × Bool) → State → Host.Outcome State Fault Refusal
  | [], s => .next s
  | (pos, lvl) :: es, s =>
    match exec (.edge pos lvl) s with
    | .next t => deliverEdges es t
    | .fault r => .fault r
    | .refused r => .refused r

/-- A data bit as the line carries it: the low gap up to `rise`, then the high pulse up to `fall`. -/
structure BitCell where
  rise : Pos
  fall : Pos
  bit : Bool
deriving DecidableEq, Repr

/-- The two EDGE commands of a cell. -/
def BitCell.edges (c : BitCell) : List (Pos × Bool) := [(c.rise, true), (c.fall, false)]

/-- The cells follow each other in time from a falling edge at `pos`, every high pulse in the band of its bit. The
width of a low gap is free (spec/42_frame_assembler.md R160, R163). -/
def CellsFollow (syncW : Pos) : Pos → List BitCell → Prop
  | _, [] => True
  | pos, c :: cs => pos < c.rise ∧ c.rise < c.fall ∧ InBitBand syncW (c.fall.toNat - c.rise.toNat) c.bit ∧
      CellsFollow syncW c.fall cs

/-- The kinds of the records that data bit `k` emits, in order (spec/42_frame_assembler.md R155 to R158, R161). -/
def kindsOfBit (addressSize k : Nat) : List Kind :=
  [.bit] ++ (if k = addressSize then [.address] else []) ++ (if k = 24 then [.btn] else [])
    ++ (if k = 28 then [.anti] else [])

/-- Bits read as a base-2 numeral, the first one most significant (spec/42_frame_assembler.md R162). -/
def numeral (bits : List Bool) : Nat := bits.foldl (fun n b => n * 2 + b.toNat) 0

end Sys2Proof.Machine
end

