-- ==== Sys2Proof/Certificates/Slice0/Obligations.lean ====
section
/-! DEFINITION. The statements about RF433 CORE for the provers, in the order of OBLIGATIONS.json. -/

open Sys2Proof Sys2Proof.Machine

/-! ### Words -/

/-- Decoding an encoded command gives it back, every operand at every value (spec/30_encoding.md R82, R83, R85). -/
def Obligations.DecodeAfterEncode : Prop := ∀ i : Instr, decode (encode i) = .ok i

/-- Encoding a decoded command gives its word back: no bit of a legal word is dropped, so FAULT_CMD, which `exec`
writes as `encode i`, is the accepted word (spec/60_exceptions.md R247, log entry 4). -/
def Obligations.EncodeAfterDecode : Prop := ∀ (w : CmdWord) (i : Instr), decode w = .ok i → encode i = w

/-- spec/30_encoding.md R83, whole: legality by fields, by match and mask, at most one row for any word, and
ILLEGAL_COMMAND before anything else for an accepted word that is not legal, whatever the RUN_STATE other than
FAULT. -/
def Obligations.LegalWordsDecode : Prop :=
  (∀ w : CmdWord, (∃ i, decode w = .ok i) ↔ legal w = true) ∧
  (∀ w : CmdWord, legal w = true ↔
    w.extractLsb' 65 3 = 0 ∧
    ((w.extractLsb' 68 4 = 1 ∧ w.getLsbD 64 = false ∧ w.extractLsb' 32 32 = 0) ∨
     (w.extractLsb' 68 4 = 2 ∧ w.getLsbD 64 = false ∧ w.extractLsb' 8 56 = 0) ∨
     (w.extractLsb' 68 4 = 3 ∧ w.getLsbD 64 = false ∧ w.extractLsb' 0 64 = 0) ∨
     w.extractLsb' 68 4 = 4 ∨
     (w.extractLsb' 68 4 = 5 ∧ w.getLsbD 64 = false ∧ w.extractLsb' 0 64 = 0))) ∧
  (∀ w : CmdWord, legal w = true ↔ ∃ r ∈ encodingTable, w &&& r.mask = r.value) ∧
  (∀ w : CmdWord, ∀ r ∈ encodingTable, ∀ r' ∈ encodingTable,
    w &&& r.mask = r.value → w &&& r'.mask = r'.value → r = r') ∧
  (∀ (s : State) (w : CmdWord) (ws : List CmdWord) (ts : List Turn), Offered s w ws ts →
    s.runState ≠ .fault → legal w = false →
    step s = .next { s with turns := ts, cmdIn := ws, faultCode := .illegalCommand, faultCmd := w, runState := .fault })

/-- spec/30_encoding.md R85: `word = OP * 2^68 + L * 2^64 + D`, and the rule's five examples. -/
def Obligations.EncodedWordFormula : Prop :=
  (∀ rate, (encode (.setrate rate)).toNat = 0x1 * 2 ^ 68 + 0 * 2 ^ 64 + rate.toNat) ∧
  (∀ size, (encode (.setasize size)).toNat = 0x2 * 2 ^ 68 + 0 * 2 ^ 64 + size.toNat) ∧
  (encode .start).toNat = 0x3 * 2 ^ 68 + 0 * 2 ^ 64 + 0 ∧
  (∀ pos lvl, (encode (.edge pos lvl)).toNat = 0x4 * 2 ^ 68 + lvl.toNat * 2 ^ 64 + pos.toNat) ∧
  (encode .eos).toNat = 0x5 * 2 ^ 68 + 0 * 2 ^ 64 + 0 ∧
  encode (.setrate 1000000) = 0x1000000000000F4240#72 ∧
  encode .start = 0x300000000000000000#72 ∧
  encode (.edge 10100 true) = 0x410000000000002774#72 ∧
  encode (.edge 100 false) = 0x400000000000000064#72 ∧
  encode .eos = 0x500000000000000000#72

/-- A few words written out from the spec decode to the commands they stand for (spec/95_test_vectors.md V-EN1 to
V-EN8). -/
def Obligations.WordsOfTheSpecDecode : Prop :=
  decode 0x1000000000000F4240#72 = .ok (.setrate 1000000) ∧
  decode 0x200000000000000016#72 = .ok (.setasize 22) ∧
  decode 0x300000000000000000#72 = .ok .start ∧
  decode 0x410000000000002774#72 = .ok (.edge 10100 true) ∧
  decode 0x40FFFFFFFFFFFFFFFF#72 = .ok (.edge 18446744073709551615 false) ∧
  decode 0x500000000000000000#72 = .ok .eos

/-- On a byte transport byte `i` holds bits [8i+7:8i], 9 bytes a command and 25 a record, and a command read back from
its bytes decodes as its word does (spec/20_memory.md R66). -/
def Obligations.ByteTransport : Prop :=
  (∀ w : CmdWord, (cmdBytes w).length = 9 ∧ (∀ i < 9, (cmdBytes w)[i]? = some (w.extractLsb' (8 * i) 8)) ∧
    decodeBytes (cmdBytes w) = decode w) ∧
  (∀ r : Record, r.bytes.length = 25 ∧ ∀ i < 25, r.bytes[i]? = some (r.word.extractLsb' (8 * i) 8))

/-- spec/30_encoding.md R86: an operand that does not fit its field (a rate above 2^32-1, a size above 255, a position
above 2^64-1, a level other than 0 or 1) gives no word. Operands that all fit give a legal word, which decodes to the
command with those operands. START and EOS always have theirs. -/
def Obligations.AssemblyWordsAreLegal : Prop :=
  (∀ c : AsmCmd, (c.fits = false → c.word? = none) ∧
    (c.fits = true → ∃ w, c.word? = some w ∧ legal w = true)) ∧
  (∀ n : Nat, ((AsmCmd.setrate n).word? = none ↔ 2 ^ 32 ≤ n) ∧
    (n < 2 ^ 32 → ∃ w rate, (AsmCmd.setrate n).word? = some w ∧ decode w = .ok (.setrate rate) ∧ rate.toNat = n)) ∧
  (∀ n : Nat, ((AsmCmd.setasize n).word? = none ↔ 2 ^ 8 ≤ n) ∧
    (n < 2 ^ 8 → ∃ w size, (AsmCmd.setasize n).word? = some w ∧ decode w = .ok (.setasize size) ∧ size.toNat = n)) ∧
  (∀ p l : Nat, ((AsmCmd.edge p l).word? = none ↔ 2 ^ 64 ≤ p ∨ 2 ≤ l) ∧
    (p < 2 ^ 64 → l < 2 → ∃ w pos lvl, (AsmCmd.edge p l).word? = some w ∧ decode w = .ok (.edge pos lvl) ∧
      pos.toNat = p ∧ (lvl = true ↔ l = 1))) ∧
  (∃ w, AsmCmd.start.word? = some w ∧ decode w = .ok .start) ∧
  (∃ w, AsmCmd.eos.word? = some w ∧ decode w = .ok .eos)

/-! ### Records and the status port -/

/-- The fields of a record word, with the kind codes and channels of the spec (spec/30_encoding.md R88, R89). -/
def Obligations.RecordWordFields : Prop :=
  (∀ r : Record, r.word.extractLsb' 196 4 = r.kind.code ∧ r.word.extractLsb' 194 2 = 0 ∧
    r.word.extractLsb' 192 2 = r.kind.chan ∧ r.word.extractLsb' 128 64 = r.start ∧
    r.word.extractLsb' 64 64 = r.stop ∧ r.word.extractLsb' 0 64 = r.payload) ∧
  [Kind.time, .pilot, .lambda, .bit, .address, .btn, .anti].map Kind.code = [0, 1, 2, 3, 4, 5, 6] ∧
  [Kind.time, .pilot, .lambda, .bit, .address, .btn, .anti].map Kind.chan = [0, 1, 2, 1, 2, 2, 2]

/-- The ADDRESS payload: value in [27:0], length in [32:28], zero above, the same as status word 0x05
(spec/30_encoding.md R91, spec/42_frame_assembler.md R150). -/
def Obligations.AddressPayloadLayout : Prop :=
  ∀ (len : BitVec 5) (buf : BitVec 28),
    (addressPayload len buf).extractLsb' 0 28 = buf ∧ (addressPayload len buf).extractLsb' 28 5 = len ∧
    (addressPayload len buf).extractLsb' 33 31 = 0 ∧
    (addressPayload len buf).toNat = len.toNat * 2 ^ 28 + buf.toNat ∧
    ∀ r : Regs, r.addrLen = len → r.addrBuf = buf → statusWord r 0x05 = addressPayload len buf

/-- The whole map of spec/10_state.md R41, with the codes that its RUN_STATE and FAULT_CODE fields show
(spec/10_state.md R23, R24, spec/60_exceptions.md R240). -/
def Obligations.StatusPortMap : Prop :=
  [RunState.config, .run, .fault].map RunState.code = [0, 1, 2] ∧
  [FaultCode.none, .configError, .malformedOrder, .malformedLevel, .illegalCommand, .sequenceError].map
    FaultCode.code = [0, 1, 2, 3, 4, 5] ∧
  ∀ r : Regs,
    (statusWord r 0x00).extractLsb' 0 2 = r.runState.code ∧ (statusWord r 0x00).getLsbD 2 = r.seeded ∧
    (statusWord r 0x00).getLsbD 3 = r.lastLvl ∧ (statusWord r 0x00).getLsbD 4 = r.inFrame ∧
    (statusWord r 0x00).extractLsb' 5 5 = r.bitCount ∧ (statusWord r 0x00).extractLsb' 10 6 = 0 ∧
    (statusWord r 0x00).extractLsb' 16 3 = r.faultCode.code ∧ (statusWord r 0x00).extractLsb' 19 45 = 0 ∧
    (statusWord r 0x01).toNat = r.sampleRate.toNat ∧ (statusWord r 0x02).toNat = r.addressSize.toNat ∧
    statusWord r 0x03 = r.lastPos ∧ statusWord r 0x04 = r.syncW ∧
    (statusWord r 0x05).extractLsb' 0 28 = r.addrBuf ∧ (statusWord r 0x05).extractLsb' 28 5 = r.addrLen ∧
    (statusWord r 0x05).extractLsb' 33 31 = 0 ∧
    statusWord r 0x06 = r.frameStart ∧ statusWord r 0x07 = r.addrStart ∧ statusWord r 0x08 = r.lastBitEnd ∧
    statusWord r 0x09 = r.btnStart ∧ statusWord r 0x0A = r.antiStart ∧
    statusWord r 0x0B = r.faultCmd.extractLsb' 0 64 ∧
    (statusWord r 0x0C).toNat = (r.faultCmd.extractLsb' 64 8).toNat ∧
    ∀ i : BitVec 5, 0x0D ≤ i.toNat → statusWord r i = 0

/-- The fault output is 1 exactly in FAULT, where RUN_STATE's code is 2 (spec/20_memory.md R64,
spec/10_state.md R23). -/
def Obligations.FaultOutputLevel : Prop :=
  ∀ r : Regs, (faultOutput r = true ↔ r.runState = .fault) ∧ (faultOutput r = true ↔ r.runState.code = 2)

/-! ### Session control -/

/-- SETRATE in CONFIG writes SAMPLE_RATE alone, whatever the rate, 0 included (spec/44_session_control.md R210). -/
def Obligations.SetrateWritesSampleRate : Prop :=
  ∀ (rate : BitVec 32) (s : State), s.runState = .config →
    exec (.setrate rate) s = .next { s with sampleRate := rate }

/-- SETASIZE in CONFIG writes ADDRESS_SIZE alone, every value accepted (spec/44_session_control.md R211). -/
def Obligations.SetasizeWritesAddressSize : Prop :=
  ∀ (size : BitVec 8) (s : State), s.runState = .config →
    exec (.setasize size) s = .next { s with addressSize := size }

/-- START in CONFIG with a sample rate opens a session from the initial state (spec/44_session_control.md R212). -/
def Obligations.StartOpensSession : Prop :=
  ∀ s : State, s.runState = .config → s.sampleRate ≠ 0 →
    exec .start s = .next { s with
      seeded := false, lastPos := 0, lastLvl := false, inFrame := false, bitCount := 0, syncW := 0
      addrBuf := 0, addrLen := 0, frameStart := 0, addrStart := 0, lastBitEnd := 0, btnStart := 0, antiStart := 0
      runState := .run }

/-- EOS in RUN returns to CONFIG and does nothing else, even with a frame open (spec/44_session_control.md R213). -/
def Obligations.EosClosesSession : Prop :=
  ∀ s : State, s.runState = .run → exec .eos s = .next { s with runState := .config }

/-- spec/60_exceptions.md R241: START without a sample rate raises CONFIG_ERROR with the START word recorded, and no
edge is consumed before this check, since EDGE is refused outside RUN. -/
def Obligations.StartWithoutRateFaults : Prop :=
  (∀ s : State, s.runState = .config → s.sampleRate = 0 →
    exec .start s = .next { s with
      faultCode := .configError, faultCmd := 0x300000000000000000#72, runState := .fault }) ∧
  (∀ (s : State) (pos : Pos) (lvl : Bool) (t : State), s.runState ≠ .run → exec (.edge pos lvl) s = .next t →
    t.lastPos = s.lastPos ∧ t.lastLvl = s.lastLvl ∧ t.seeded = s.seeded ∧ t.recOut = s.recOut)

/-- spec/60_exceptions.md R245: a legal word whose command is not accepted in the current RUN_STATE raises
SEQUENCE_ERROR with the word recorded, and nothing else changes. -/
def Obligations.SequenceErrorOutsideHomeState : Prop :=
  (∀ (s : State) (w : CmdWord) (ws : List CmdWord) (ts : List Turn) (i : Instr), Offered s w ws ts →
    decode w = .ok i → s.runState ≠ .fault → s.runState ≠ homeState i →
    step s = .next { s with
      turns := ts, cmdIn := ws, faultCode := .sequenceError, faultCmd := w, runState := .fault }) ∧
  (∀ rate, homeState (.setrate rate) = .config) ∧ (∀ size, homeState (.setasize size) = .config) ∧
  homeState .start = .config ∧ (∀ pos lvl, homeState (.edge pos lvl) = .run) ∧ homeState .eos = .run

/-- spec/44_session_control.md R215: in FAULT an accepted word is consumed and dropped, and only the reset input
leaves FAULT. -/
def Obligations.FaultStateDropsWords : Prop :=
  (∀ (s : State) (w : CmdWord) (ws : List CmdWord) (ts : List Turn), Offered s w ws ts → s.runState = .fault →
    step s = .next { s with turns := ts, cmdIn := ws }) ∧
  (∀ s t : State, s.runState = .fault → step s = .next t → t.runState ≠ .fault →
    ∃ cmds ts, s.turns = .reset cmds :: ts) ∧
  (∀ s t : State, s.runState = .fault → step s = .next t → (∀ cmds ts, s.turns ≠ .reset cmds :: ts) →
    t.toRegs = s.toRegs)

/-! ### EDGE: the checks -/

/-- spec/41_pulse_classifier.md R121: a session's first edge seeds the last-edge memory and does nothing else, and one
of level 0 faults MALFORMED_LEVEL, since the initial pin hint is 0. The invariants of the session say that LAST_LVL
still holds the hint. -/
def Obligations.FirstEdgeSeeds : Prop :=
  ∀ (s : State) (pos : Pos), s.runState = .run → s.seeded = false → SessionConsistent s.toRegs →
    s.lastLvl = false ∧
    exec (.edge pos true) s = .next { s with lastPos := pos, lastLvl := true, seeded := true } ∧
    exec (.edge pos false) s = .next { s with
      faultCode := .malformedLevel, faultCmd := encode (.edge pos false), runState := .fault }

/-- spec/41_pulse_classifier.md R124: a later edge at a position not above LAST_POS faults MALFORMED_ORDER, whatever
its level, before any register is written. -/
def Obligations.RepeatedPositionFaults : Prop :=
  ∀ (s : State) (pos : Pos) (lvl : Bool), s.runState = .run → s.seeded = true → pos ≤ s.lastPos →
    exec (.edge pos lvl) s = .next { s with
      faultCode := .malformedOrder, faultCmd := encode (.edge pos lvl), runState := .fault }

/-- spec/41_pulse_classifier.md R125: an edge of the level that LAST_LVL holds faults MALFORMED_LEVEL before any
register is written, the position check coming first on a later edge (spec/60_exceptions.md R248). -/
def Obligations.RepeatedLevelFaults : Prop :=
  ∀ (s : State) (pos : Pos) (lvl : Bool), s.runState = .run → lvl = s.lastLvl →
    (s.seeded = true → s.lastPos < pos) →
    exec (.edge pos lvl) s = .next { s with
      faultCode := .malformedLevel, faultCmd := encode (.edge pos lvl), runState := .fault }

/-- The fault a word takes is the first that fails in the order of spec/60_exceptions.md R248, and fault entry (R247)
writes the three fault registers alone, emits no record and raises the fault output. A word that takes no fault leaves
the fault registers as they are. -/
def Obligations.FaultPriorityAndPrecision : Prop :=
  ∀ (s : State) (w : CmdWord) (ws : List CmdWord) (ts : List Turn), Offered s w ws ts →
    (∀ c, faultFor w s.toRegs = some c →
      step s = .next { s with turns := ts, cmdIn := ws, faultCode := c, faultCmd := w, runState := .fault } ∧
      c ≠ .none ∧
      faultOutput { s.toRegs with faultCode := c, faultCmd := w, runState := .fault } = true) ∧
    (faultFor w s.toRegs = none → ∃ t, step s = .next t ∧ t.faultCode = s.faultCode ∧ t.faultCmd = s.faultCmd ∧
      (t.runState = .fault ↔ s.runState = .fault))

/-! ### EDGE: the classifier -/

/-- spec/41_pulse_classifier.md R127: the window test by its integer comparisons, that it is the source's open interval
on seconds, and the rule's two examples. -/
def Obligations.SyncWindowIsTheOpenInterval : Prop :=
  (∀ (rate : BitVec 32) (width : Pos), syncWindow rate width = true ↔
    92 * rate.toNat < 10000 * width.toNat ∧ 10000 * width.toNat < 138 * rate.toNat) ∧
  (∀ (rate : BitVec 32) (width : Pos), rate ≠ 0 → (syncWindow rate width = true ↔
    (92 / 10000 : ℚ) < (width.toNat : ℚ) / (rate.toNat : ℚ) ∧
    (width.toNat : ℚ) / (rate.toNat : ℚ) < 138 / 10000)) ∧
  (∀ width : Pos, syncWindow 1000000 width = true ↔ 9201 ≤ width.toNat ∧ width.toNat ≤ 13799) ∧
  (∀ width : Pos, syncWindow 48000 width = true ↔ 442 ≤ width.toNat ∧ width.toNat ≤ 662)

/-- spec/41_pulse_classifier.md R128: the bands by their integer comparisons, that they are the source's open intervals
around lambda with `lambda = SYNC_W / (23 * SAMPLE_RATE)` seconds, and that a width on a bound is REJECT. -/
def Obligations.BandsAreTheOpenIntervals : Prop :=
  (∀ syncW width : Pos,
    (band syncW width = .bit1 ↔ InBitBand syncW width.toNat true) ∧
    (band syncW width = .bit0 ↔ InBitBand syncW width.toNat false) ∧
    (band syncW width = .reject ↔
      ¬ InBitBand syncW width.toNat true ∧ ¬ InBitBand syncW width.toNat false)) ∧
  (∀ (rate : BitVec 32) (syncW width : Pos), rate ≠ 0 →
    let lambda : ℚ := (syncW.toNat : ℚ) / (23 * (rate.toNat : ℚ))
    let seconds : ℚ := (width.toNat : ℚ) / (rate.toNat : ℚ)
    (band syncW width = .bit1 ↔ 1 / 2 * lambda < seconds ∧ seconds < 3 / 2 * lambda) ∧
    (band syncW width = .bit0 ↔ 3 / 2 * lambda < seconds ∧ seconds < 5 / 2 * lambda) ∧
    (band syncW width = .reject ↔ ¬ (1 / 2 * lambda < seconds ∧ seconds < 3 / 2 * lambda) ∧
      ¬ (3 / 2 * lambda < seconds ∧ seconds < 5 / 2 * lambda))) ∧
  (∀ syncW width : Pos, (46 * width.toNat = syncW.toNat ∨ 46 * width.toNat = 3 * syncW.toNat ∨
    46 * width.toNat = 5 * syncW.toNat) → band syncW width = .reject)

/-- spec/41_pulse_classifier.md R131: the guard holds for every width of at least one sample. -/
def Obligations.SyncGuardAlwaysHolds : Prop := ∀ width : Pos, 1 ≤ width.toNat → syncGuard width = true

/-- In frame SAMPLE_RATE is not read: two states that differ in it alone go on alike (spec/41_pulse_classifier.md
R128, R129). -/
def Obligations.SampleRateIsNotReadInFrame : Prop :=
  ∀ (s t : State) (rate : BitVec 32) (pos : Pos) (lvl : Bool), s.inFrame = true →
    exec (.edge pos lvl) s = .next t →
    exec (.edge pos lvl) { s with sampleRate := rate } = .next { t with sampleRate := rate }

/-! ### EDGE: the assembler -/

/-- IDLE, Sync (spec/42_frame_assembler.md R151): every register and the three records. -/
def Obligations.SyncPulseBeginsFrame : Prop :=
  ∀ (s : State) (pos : Pos), FormsPulse s pos true → s.inFrame = false →
    92 * s.sampleRate.toNat < 10000 * samplesTo s pos → 10000 * samplesTo s pos < 138 * s.sampleRate.toNat →
    exec (.edge pos true) s = .next { s with
      lastPos := pos, lastLvl := true, syncW := BitVec.ofNat 64 (samplesTo s pos), inFrame := true
      bitCount := 0, addrBuf := 0, addrLen := 0, frameStart := s.lastPos
      addrStart := pos, lastBitEnd := pos, btnStart := pos, antiStart := pos
      recOut := s.recOut ++ [⟨.time, s.lastPos, pos, BitVec.ofNat 64 (samplesTo s pos)⟩,
        ⟨.pilot, s.lastPos, pos, 0⟩, ⟨.lambda, s.lastPos, pos, BitVec.ofNat 64 (samplesTo s pos)⟩] }

/-- IDLE, non-sync pulse (spec/42_frame_assembler.md R152): a high pulse of any width, or a low one outside the open
window, moves the last-edge memory alone. -/
def Obligations.IdlePulseOutsideWindowIsNoOp : Prop :=
  ∀ (s : State) (pos : Pos) (lvl : Bool), FormsPulse s pos lvl → s.inFrame = false →
    (lvl = false ∨ 10000 * samplesTo s pos ≤ 92 * s.sampleRate.toNat ∨
      138 * s.sampleRate.toNat ≤ 10000 * samplesTo s pos) →
    exec (.edge pos lvl) s = .next { s with lastPos := pos, lastLvl := lvl }

/-- IN_FRAME, bit_count == 0 (spec/42_frame_assembler.md R153): the boundary marker records no bit. -/
def Obligations.BoundaryMarkerRecordsNoBit : Prop :=
  ∀ (s : State) (pos : Pos) (b : Bool), FormsPulse s pos false → s.inFrame = true → s.bitCount = 0 →
    InBitBand s.syncW (samplesTo s pos) b →
    exec (.edge pos false) s = .next { s with lastPos := pos, lastLvl := false, lastBitEnd := pos, bitCount := 1 }

/-- IN_FRAME, a data bit (spec/42_frame_assembler.md R154 to R158): the append, the per-bit record, the ADDRESS and
BTN boundaries, the advance and the completion, with every record and every other register. The invariants of R43 say
that the address buffer has room for the append. -/
def Obligations.DataBitTransition : Prop :=
  ∀ (s : State) (pos : Pos) (b : Bool), FormsPulse s pos false → s.inFrame = true → s.bitCount ≠ 0 →
    InBitBand s.syncW (samplesTo s pos) b → RegsConsistent s.toRegs →
    ∃ (buf : BitVec 28) (len : BitVec 5),
      (s.bitCount.toNat ≤ s.addressSize.toNat →
        buf.toNat = s.addrBuf.toNat * 2 + b.toNat ∧ len.toNat = s.addrLen.toNat + 1) ∧
      (s.addressSize.toNat < s.bitCount.toNat → buf = s.addrBuf ∧ len = s.addrLen) ∧
      exec (.edge pos false) s = .next { s with
        lastPos := pos, lastLvl := false, addrBuf := buf, addrLen := len, lastBitEnd := pos
        btnStart := if s.bitCount.toNat = s.addressSize.toNat then pos else s.btnStart
        antiStart := if s.bitCount = 24 then pos else s.antiStart
        bitCount := if s.bitCount = 28 then 0 else s.bitCount + 1
        inFrame := decide (s.bitCount ≠ 28)
        recOut := s.recOut ++ [⟨.bit, s.lastBitEnd, pos, if b then 1 else 0⟩]
          ++ (if s.bitCount.toNat = s.addressSize.toNat then
              [⟨.address, s.addrStart, pos, BitVec.ofNat 64 (len.toNat * 2 ^ 28 + buf.toNat)⟩] else [])
          ++ (if s.bitCount = 24 then
              [⟨.btn, if s.bitCount.toNat = s.addressSize.toNat then pos else s.btnStart, pos, 0⟩] else [])
          ++ (if s.bitCount = 28 then [⟨.anti, s.antiStart, pos, 0⟩] else []) }

/-- IN_FRAME, Reject (spec/42_frame_assembler.md R159): a high pulse outside both bands clears IN_FRAME and nothing
else of the assembler, whatever BIT_COUNT is, with no record and no fault (spec/60_exceptions.md R246). -/
def Obligations.RejectAbandonsFrame : Prop :=
  ∀ (s : State) (pos : Pos), FormsPulse s pos false → s.inFrame = true → RegsConsistent s.toRegs →
    ¬ InBitBand s.syncW (samplesTo s pos) true → ¬ InBitBand s.syncW (samplesTo s pos) false →
    exec (.edge pos false) s = .next { s with lastPos := pos, lastLvl := false, inFrame := false }

/-- IN_FRAME, low pulse (spec/42_frame_assembler.md R160): one of any width, the sync window included, moves the
last-edge memory alone. -/
def Obligations.InFrameLowPulseIsIgnored : Prop :=
  ∀ (s : State) (pos : Pos), FormsPulse s pos true → s.inFrame = true →
    exec (.edge pos true) s = .next { s with lastPos := pos, lastLvl := true }

/-- The records a command adds: an EDGE adds one of the shapes of spec/42_frame_assembler.md R161, the two-field ones
only at ADDRESS_SIZE 24 and 28, and no other command adds any (spec/30_encoding.md R92). -/
def Obligations.RecordsOfOneCommand : Prop :=
  (∀ (s t : State) (pos : Pos) (lvl : Bool), exec (.edge pos lvl) s = .next t →
    ∃ new : List Record, t.recOut = s.recOut ++ new ∧ new.length ≤ 3 ∧
      (new.map Record.kind = [] ∨ new.map Record.kind = [.time, .pilot, .lambda] ∨ new.map Record.kind = [.bit] ∨
       new.map Record.kind = [.bit, .address] ∨ new.map Record.kind = [.bit, .btn] ∨
       new.map Record.kind = [.bit, .anti] ∨
       (new.map Record.kind = [.bit, .address, .btn] ∧ s.addressSize = 24) ∨
       (new.map Record.kind = [.bit, .address, .anti] ∧ s.addressSize = 28))) ∧
  (∀ (i : Instr) (s t : State), (∀ pos lvl, i ≠ .edge pos lvl) → exec i s = .next t → t.recOut = s.recOut)

/-- Every ADDRESS record spans from ADDR_START to the current position, and its length is ADDRESS_SIZE
(spec/42_frame_assembler.md R156, spec/90_conflicts.md C5). -/
def Obligations.AddressRecordLengthIsAddressSize : Prop :=
  ∀ (s t : State) (pos : Pos) (lvl : Bool), RegsConsistent s.toRegs → exec (.edge pos lvl) s = .next t →
    ∀ new : List Record, t.recOut = s.recOut ++ new → ∀ r ∈ new, r.kind = .address →
      (r.payload.extractLsb' 28 5).toNat = s.addressSize.toNat ∧ r.start = s.addrStart ∧ r.stop = pos

/-- A complete frame (spec/42_frame_assembler.md R163, R164): from the state a sync leaves, a marker and 28 data bits
with low gaps of any width between them complete the frame. The records come in the order of R161 for every
ADDRESS_SIZE, and the buffer ends as the base-2 numeral of the first ADDRESS_SIZE data bits, the first one most
significant (R162). -/
def Obligations.CompleteFrame : Prop :=
  ∀ (s : State) (marker : Pos) (markerBit : Bool) (cells : List BitCell),
    RegsConsistent s.toRegs → FormsPulse s marker false → s.inFrame = true → s.bitCount = 0 →
    InBitBand s.syncW (samplesTo s marker) markerBit →
    cells.length = 28 → CellsFollow s.syncW marker cells →
    ∃ t, deliverEdges ((marker, false) :: cells.flatMap BitCell.edges) s = .next t ∧
      t.runState = .run ∧ t.inFrame = false ∧ t.bitCount = 0 ∧
      t.addrLen.toNat = min s.addressSize.toNat 28 ∧
      t.addrBuf.toNat = numeral ((cells.map BitCell.bit).take s.addressSize.toNat) ∧
      t.recOut.map Record.kind = s.recOut.map Record.kind ++
        (List.range 28).flatMap (fun j => kindsOfBit s.addressSize.toNat (j + 1))

/-! ### The channels and a step -/

/-- When the host's word is accepted and decodes, the step is `exec` of its instruction at the state without the turn
and the word; when it does not decode, ILLEGAL_COMMAND or, in FAULT, nothing (spec/20_memory.md R61,
spec/30_encoding.md R83). That a turn of the host lets it happen is the model's choice (log entry 1). -/
def Obligations.StepRunsTheDecodedCommand : Prop :=
  ∀ (s : State) (w : CmdWord) (ws : List CmdWord) (ts : List Turn), Offered s w ws ts →
    (∀ i, decode w = .ok i → step s = exec i { s with turns := ts, cmdIn := ws }) ∧
    (∀ e, decode w = .error e → step s = .next (illegalCommand w { s with turns := ts, cmdIn := ws }))

/-- A placed word is the one the next step runs, and placing it leaves every register as it was. The placing is the
model's own (log entry 1). -/
def Obligations.PlacedWordRunsNext : Prop :=
  ∀ (i : Instr) (s : State), step (s.withFetchWord 72 (encode i).toNat) = exec i { s with recOut := [] } ∧
    (s.withFetchWord 72 (encode i).toNat).toRegs = s.toRegs

/-- No step ends in a Lean fault or refusal: every word in every state has an effect by the spec (log entry 12). -/
def Obligations.StepNeverStops : Prop := ∀ s : State, ∃ t, step s = .next t

/-- spec/70_reset_and_hazards.md R270: the reset values, and any state that reset is asserted in takes them, with the
untaken records discarded (R271). That the host's next words come with the turn, and
that the records already taken stay with the consumer, are the model's choices (log entries 2 and 17). -/
def Obligations.ResetValues : Prop :=
  (State.reset.sampleRate = 0 ∧ State.reset.addressSize = 22 ∧ State.reset.runState = .config ∧
    State.reset.faultCode = .none ∧ State.reset.faultCmd = 0 ∧ State.reset.seeded = false ∧
    State.reset.lastPos = 0 ∧ State.reset.lastLvl = false ∧ State.reset.inFrame = false ∧
    State.reset.bitCount = 0 ∧ State.reset.syncW = 0 ∧ State.reset.addrBuf = 0 ∧ State.reset.addrLen = 0 ∧
    State.reset.frameStart = 0 ∧ State.reset.addrStart = 0 ∧ State.reset.lastBitEnd = 0 ∧
    State.reset.btnStart = 0 ∧ State.reset.antiStart = 0 ∧ faultOutput State.reset.toRegs = false) ∧
  (∀ (s : State) (cmds : List CmdWord) (ts : List Turn), s.turns = .reset cmds :: ts →
    step s = .next { s with toRegs := State.reset.toRegs, recOut := [], cmdIn := cmds, turns := ts })

/-- The consumer takes the oldest record and nothing else changes (spec/20_memory.md R62). The turn and the list of
taken records are the model's choice (log entry 1). -/
def Obligations.ConsumerTakesOldestRecord : Prop :=
  ∀ (s : State) (r : Record) (rs : List Record) (ts : List Turn), s.turns = .consumer :: ts →
    s.recOut = r :: rs → step s = .next { s with turns := ts, recOut := rs, taken := s.taken ++ [r] }

/-- Back-pressure (spec/70_reset_and_hazards.md R276): while the consumer takes nothing and no reset comes, an untaken
record holds the block for ever: no command is accepted, no record is dropped, no register changes. The turns, and
waiting as a step that answers a next state, are the model's choice (log entries 1 and 8). -/
def Obligations.UntakenRecordStallsForever : Prop :=
  ∀ (n : Nat) (s : State), s.recOut ≠ [] → (∀ turn ∈ s.turns, turn = .host) →
    ∃ t, Host.Core.run Sys2Proof.core n s = .next t ∧ t.toRegs = s.toRegs ∧ t.recOut = s.recOut ∧
      t.cmdIn = s.cmdIn ∧ t.taken = s.taken

/-- Once the consumer has taken every record of a command, oldest first, the block is ready and the host's next turn
runs the next word (spec/20_memory.md R61, R62). The turns are the model's choice (log entry 1). -/
def Obligations.DrainedChannelAcceptsNext : Prop :=
  ∀ (s : State) (w : CmdWord) (ws : List CmdWord) (ts : List Turn) (i : Instr),
    s.turns = List.replicate s.recOut.length .consumer ++ .host :: ts → s.cmdIn = w :: ws → decode w = .ok i →
    Host.Core.run Sys2Proof.core (s.recOut.length + 1) s =
      exec i { s with turns := ts, cmdIn := ws, recOut := [], taken := s.taken ++ s.recOut }

/-- With no turn left the block waits with its state unchanged, for ever (spec/70_reset_and_hazards.md R279). The
schedule that runs out is the model's choice (log entry 1). -/
def Obligations.WaitingKeepsState : Prop :=
  ∀ (n : Nat) (s : State), s.turns = [] → Host.Core.run Sys2Proof.core n s = .next s

/-! ### Whole-machine rules and invariants -/

/-- Each register is written only by the commands of its row in spec/10_state.md R20. -/
def Obligations.RegistersWrittenOnlyByTheirCommands : Prop :=
  ∀ (i : Instr) (s t : State), exec i s = .next t →
    (t.sampleRate ≠ s.sampleRate → ∃ rate, i = .setrate rate) ∧
    (t.addressSize ≠ s.addressSize → ∃ size, i = .setasize size) ∧
    (t.runState ≠ s.runState → t.runState = .fault ∨ (i = .start ∧ s.runState = .config ∧ t.runState = .run) ∨
      (i = .eos ∧ s.runState = .run ∧ t.runState = .config)) ∧
    ((t.faultCode ≠ s.faultCode ∨ t.faultCmd ≠ s.faultCmd) → s.runState ≠ .fault ∧ t.runState = .fault) ∧
    ((t.seeded ≠ s.seeded ∨ t.lastPos ≠ s.lastPos ∨ t.lastLvl ≠ s.lastLvl ∨ t.inFrame ≠ s.inFrame ∨
      t.bitCount ≠ s.bitCount ∨ t.syncW ≠ s.syncW ∨ t.addrBuf ≠ s.addrBuf ∨ t.addrLen ≠ s.addrLen ∨
      t.frameStart ≠ s.frameStart ∨ t.addrStart ≠ s.addrStart ∨ t.lastBitEnd ≠ s.lastBitEnd ∨
      t.btnStart ≠ s.btnStart ∨ t.antiStart ≠ s.antiStart) → i = .start ∨ ∃ pos lvl, i = .edge pos lvl) ∧
    t.cmdIn = s.cmdIn ∧ t.turns = s.turns ∧ t.taken = s.taken

/-- Only a sync pulse sets IN_FRAME (spec/10_state.md R29): a step that sets it ran in a session, emitted the three
sync records, cleared the counters and holds a sync width inside the window (spec/42_frame_assembler.md R166). -/
def Obligations.OnlySyncSetsInFrame : Prop :=
  ∀ s t : State, step s = .next t → s.inFrame = false → t.inFrame = true →
    s.runState = .run ∧ s.recOut = [] ∧ t.recOut.map Record.kind = [.time, .pilot, .lambda] ∧
    t.bitCount = 0 ∧ t.addrBuf = 0 ∧ t.addrLen = 0 ∧
    92 * s.sampleRate.toNat < 10000 * t.syncW.toNat ∧ 10000 * t.syncW.toNat < 138 * s.sampleRate.toNat

/-- A session runs with the configuration in force at its START (spec/70_reset_and_hazards.md R274): in RUN no step
but reset changes SAMPLE_RATE or ADDRESS_SIZE. -/
def Obligations.ConfigurationFixedInSession : Prop :=
  ∀ s t : State, s.runState = .run → step s = .next t → (∀ cmds ts, s.turns ≠ .reset cmds :: ts) →
    t.sampleRate = s.sampleRate ∧ t.addressSize = s.addressSize

/-- The invariants hold at reset. -/
def Obligations.InvariantsHoldAtReset : Prop := Consistent State.reset

/-- The seven invariants of spec/10_state.md R43 are kept by every step, from every state that meets them. -/
def Obligations.StepKeepsRegisterInvariants : Prop :=
  ∀ s t : State, RegsConsistent s.toRegs → step s = .next t → RegsConsistent t.toRegs

/-- With them, every step keeps what single rules add: no fault word without a fault, a session has a sample rate, the
pin hint until the first edge, the field boundaries in order, and at most three untaken records, each with START not
above END (spec/10_state.md R25, R28, spec/30_encoding.md R88, spec/20_memory.md R62). -/
def Obligations.StepKeepsSessionAndRecordInvariants : Prop :=
  ∀ s t : State, Consistent s → step s = .next t → SessionConsistent t.toRegs ∧ RecordsOrdered t

/-! ### The host's text -/

/-- A TIME record's duration needs the milliseconds band alone, its frequency in Hz
(spec/43_duration_formatter.md R194). -/
def Obligations.SyncDurationIsInMilliseconds : Prop :=
  ∀ (rate : BitVec 32) (width : Pos), syncWindow rate width = true →
    ∃ d, formatDuration width.toNat rate.toNat = .inBand d ∧ d.band = .milliseconds ∧ d.freqUnit = .hz
end

