-- ==== Sys2Proof/Laws/State.lean ====
section
/-! SUPPORT. What each named update of the state leaves in every field, one lemma a field, for simp. -/

namespace Sys2Proof.Machine

/-! ### emit: the registers as a whole, then the channels -/

@[simp] theorem emit_toRegs (k : Kind) (a b : Pos) (p : BitVec 64) (s : State) : (emit k a b p s).toRegs = s.toRegs := rfl
@[simp] theorem emit_recOut (k : Kind) (a b : Pos) (p : BitVec 64) (s : State) :
    (emit k a b p s).recOut = s.recOut ++ [⟨k, a, b, p⟩] := rfl
@[simp] theorem emit_cmdIn (k : Kind) (a b : Pos) (p : BitVec 64) (s : State) : (emit k a b p s).cmdIn = s.cmdIn := rfl
@[simp] theorem emit_turns (k : Kind) (a b : Pos) (p : BitVec 64) (s : State) : (emit k a b p s).turns = s.turns := rfl
@[simp] theorem emit_taken (k : Kind) (a b : Pos) (p : BitVec 64) (s : State) : (emit k a b p s).taken = s.taken := rfl

/-! ### raiseFault -/

@[simp] theorem raiseFault_sampleRate (c : FaultCode) (w : CmdWord) (s : State) :
    (raiseFault c w s).sampleRate = s.sampleRate := rfl
@[simp] theorem raiseFault_addressSize (c : FaultCode) (w : CmdWord) (s : State) :
    (raiseFault c w s).addressSize = s.addressSize := rfl
@[simp] theorem raiseFault_runState (c : FaultCode) (w : CmdWord) (s : State) :
    (raiseFault c w s).runState = .fault := rfl
@[simp] theorem raiseFault_faultCode (c : FaultCode) (w : CmdWord) (s : State) :
    (raiseFault c w s).faultCode = c := rfl
@[simp] theorem raiseFault_faultCmd (c : FaultCode) (w : CmdWord) (s : State) : (raiseFault c w s).faultCmd = w := rfl
@[simp] theorem raiseFault_seeded (c : FaultCode) (w : CmdWord) (s : State) :
    (raiseFault c w s).seeded = s.seeded := rfl
@[simp] theorem raiseFault_lastPos (c : FaultCode) (w : CmdWord) (s : State) :
    (raiseFault c w s).lastPos = s.lastPos := rfl
@[simp] theorem raiseFault_lastLvl (c : FaultCode) (w : CmdWord) (s : State) :
    (raiseFault c w s).lastLvl = s.lastLvl := rfl
@[simp] theorem raiseFault_inFrame (c : FaultCode) (w : CmdWord) (s : State) :
    (raiseFault c w s).inFrame = s.inFrame := rfl
@[simp] theorem raiseFault_bitCount (c : FaultCode) (w : CmdWord) (s : State) :
    (raiseFault c w s).bitCount = s.bitCount := rfl
@[simp] theorem raiseFault_syncW (c : FaultCode) (w : CmdWord) (s : State) : (raiseFault c w s).syncW = s.syncW := rfl
@[simp] theorem raiseFault_addrBuf (c : FaultCode) (w : CmdWord) (s : State) :
    (raiseFault c w s).addrBuf = s.addrBuf := rfl
@[simp] theorem raiseFault_addrLen (c : FaultCode) (w : CmdWord) (s : State) :
    (raiseFault c w s).addrLen = s.addrLen := rfl
@[simp] theorem raiseFault_frameStart (c : FaultCode) (w : CmdWord) (s : State) :
    (raiseFault c w s).frameStart = s.frameStart := rfl
@[simp] theorem raiseFault_addrStart (c : FaultCode) (w : CmdWord) (s : State) :
    (raiseFault c w s).addrStart = s.addrStart := rfl
@[simp] theorem raiseFault_lastBitEnd (c : FaultCode) (w : CmdWord) (s : State) :
    (raiseFault c w s).lastBitEnd = s.lastBitEnd := rfl
@[simp] theorem raiseFault_btnStart (c : FaultCode) (w : CmdWord) (s : State) :
    (raiseFault c w s).btnStart = s.btnStart := rfl
@[simp] theorem raiseFault_antiStart (c : FaultCode) (w : CmdWord) (s : State) :
    (raiseFault c w s).antiStart = s.antiStart := rfl
@[simp] theorem raiseFault_recOut (c : FaultCode) (w : CmdWord) (s : State) :
    (raiseFault c w s).recOut = s.recOut := rfl
@[simp] theorem raiseFault_cmdIn (c : FaultCode) (w : CmdWord) (s : State) : (raiseFault c w s).cmdIn = s.cmdIn := rfl
@[simp] theorem raiseFault_turns (c : FaultCode) (w : CmdWord) (s : State) : (raiseFault c w s).turns = s.turns := rfl
@[simp] theorem raiseFault_taken (c : FaultCode) (w : CmdWord) (s : State) : (raiseFault c w s).taken = s.taken := rfl

/-! ### setSampleRate -/

@[simp] theorem setSampleRate_sampleRate (v : BitVec 32) (s : State) : (setSampleRate v s).sampleRate = v := rfl
@[simp] theorem setSampleRate_addressSize (v : BitVec 32) (s : State) :
    (setSampleRate v s).addressSize = s.addressSize := rfl
@[simp] theorem setSampleRate_runState (v : BitVec 32) (s : State) : (setSampleRate v s).runState = s.runState := rfl
@[simp] theorem setSampleRate_faultCode (v : BitVec 32) (s : State) :
    (setSampleRate v s).faultCode = s.faultCode := rfl
@[simp] theorem setSampleRate_faultCmd (v : BitVec 32) (s : State) : (setSampleRate v s).faultCmd = s.faultCmd := rfl
@[simp] theorem setSampleRate_seeded (v : BitVec 32) (s : State) : (setSampleRate v s).seeded = s.seeded := rfl
@[simp] theorem setSampleRate_lastPos (v : BitVec 32) (s : State) : (setSampleRate v s).lastPos = s.lastPos := rfl
@[simp] theorem setSampleRate_lastLvl (v : BitVec 32) (s : State) : (setSampleRate v s).lastLvl = s.lastLvl := rfl
@[simp] theorem setSampleRate_inFrame (v : BitVec 32) (s : State) : (setSampleRate v s).inFrame = s.inFrame := rfl
@[simp] theorem setSampleRate_bitCount (v : BitVec 32) (s : State) : (setSampleRate v s).bitCount = s.bitCount := rfl
@[simp] theorem setSampleRate_syncW (v : BitVec 32) (s : State) : (setSampleRate v s).syncW = s.syncW := rfl
@[simp] theorem setSampleRate_addrBuf (v : BitVec 32) (s : State) : (setSampleRate v s).addrBuf = s.addrBuf := rfl
@[simp] theorem setSampleRate_addrLen (v : BitVec 32) (s : State) : (setSampleRate v s).addrLen = s.addrLen := rfl
@[simp] theorem setSampleRate_frameStart (v : BitVec 32) (s : State) :
    (setSampleRate v s).frameStart = s.frameStart := rfl
@[simp] theorem setSampleRate_addrStart (v : BitVec 32) (s : State) :
    (setSampleRate v s).addrStart = s.addrStart := rfl
@[simp] theorem setSampleRate_lastBitEnd (v : BitVec 32) (s : State) :
    (setSampleRate v s).lastBitEnd = s.lastBitEnd := rfl
@[simp] theorem setSampleRate_btnStart (v : BitVec 32) (s : State) : (setSampleRate v s).btnStart = s.btnStart := rfl
@[simp] theorem setSampleRate_antiStart (v : BitVec 32) (s : State) :
    (setSampleRate v s).antiStart = s.antiStart := rfl
@[simp] theorem setSampleRate_recOut (v : BitVec 32) (s : State) : (setSampleRate v s).recOut = s.recOut := rfl
@[simp] theorem setSampleRate_cmdIn (v : BitVec 32) (s : State) : (setSampleRate v s).cmdIn = s.cmdIn := rfl
@[simp] theorem setSampleRate_turns (v : BitVec 32) (s : State) : (setSampleRate v s).turns = s.turns := rfl
@[simp] theorem setSampleRate_taken (v : BitVec 32) (s : State) : (setSampleRate v s).taken = s.taken := rfl

/-! ### setAddressSize -/

@[simp] theorem setAddressSize_sampleRate (v : BitVec 8) (s : State) :
    (setAddressSize v s).sampleRate = s.sampleRate := rfl
@[simp] theorem setAddressSize_addressSize (v : BitVec 8) (s : State) : (setAddressSize v s).addressSize = v := rfl
@[simp] theorem setAddressSize_runState (v : BitVec 8) (s : State) : (setAddressSize v s).runState = s.runState := rfl
@[simp] theorem setAddressSize_faultCode (v : BitVec 8) (s : State) :
    (setAddressSize v s).faultCode = s.faultCode := rfl
@[simp] theorem setAddressSize_faultCmd (v : BitVec 8) (s : State) : (setAddressSize v s).faultCmd = s.faultCmd := rfl
@[simp] theorem setAddressSize_seeded (v : BitVec 8) (s : State) : (setAddressSize v s).seeded = s.seeded := rfl
@[simp] theorem setAddressSize_lastPos (v : BitVec 8) (s : State) : (setAddressSize v s).lastPos = s.lastPos := rfl
@[simp] theorem setAddressSize_lastLvl (v : BitVec 8) (s : State) : (setAddressSize v s).lastLvl = s.lastLvl := rfl
@[simp] theorem setAddressSize_inFrame (v : BitVec 8) (s : State) : (setAddressSize v s).inFrame = s.inFrame := rfl
@[simp] theorem setAddressSize_bitCount (v : BitVec 8) (s : State) : (setAddressSize v s).bitCount = s.bitCount := rfl
@[simp] theorem setAddressSize_syncW (v : BitVec 8) (s : State) : (setAddressSize v s).syncW = s.syncW := rfl
@[simp] theorem setAddressSize_addrBuf (v : BitVec 8) (s : State) : (setAddressSize v s).addrBuf = s.addrBuf := rfl
@[simp] theorem setAddressSize_addrLen (v : BitVec 8) (s : State) : (setAddressSize v s).addrLen = s.addrLen := rfl
@[simp] theorem setAddressSize_frameStart (v : BitVec 8) (s : State) :
    (setAddressSize v s).frameStart = s.frameStart := rfl
@[simp] theorem setAddressSize_addrStart (v : BitVec 8) (s : State) :
    (setAddressSize v s).addrStart = s.addrStart := rfl
@[simp] theorem setAddressSize_lastBitEnd (v : BitVec 8) (s : State) :
    (setAddressSize v s).lastBitEnd = s.lastBitEnd := rfl
@[simp] theorem setAddressSize_btnStart (v : BitVec 8) (s : State) : (setAddressSize v s).btnStart = s.btnStart := rfl
@[simp] theorem setAddressSize_antiStart (v : BitVec 8) (s : State) :
    (setAddressSize v s).antiStart = s.antiStart := rfl
@[simp] theorem setAddressSize_recOut (v : BitVec 8) (s : State) : (setAddressSize v s).recOut = s.recOut := rfl
@[simp] theorem setAddressSize_cmdIn (v : BitVec 8) (s : State) : (setAddressSize v s).cmdIn = s.cmdIn := rfl
@[simp] theorem setAddressSize_turns (v : BitVec 8) (s : State) : (setAddressSize v s).turns = s.turns := rfl
@[simp] theorem setAddressSize_taken (v : BitVec 8) (s : State) : (setAddressSize v s).taken = s.taken := rfl

/-! ### openSession -/

@[simp] theorem openSession_sampleRate (s : State) : (openSession s).sampleRate = s.sampleRate := rfl
@[simp] theorem openSession_addressSize (s : State) : (openSession s).addressSize = s.addressSize := rfl
@[simp] theorem openSession_runState (s : State) : (openSession s).runState = .run := rfl
@[simp] theorem openSession_faultCode (s : State) : (openSession s).faultCode = s.faultCode := rfl
@[simp] theorem openSession_faultCmd (s : State) : (openSession s).faultCmd = s.faultCmd := rfl
@[simp] theorem openSession_seeded (s : State) : (openSession s).seeded = false := rfl
@[simp] theorem openSession_lastPos (s : State) : (openSession s).lastPos = 0 := rfl
@[simp] theorem openSession_lastLvl (s : State) : (openSession s).lastLvl = false := rfl
@[simp] theorem openSession_inFrame (s : State) : (openSession s).inFrame = false := rfl
@[simp] theorem openSession_bitCount (s : State) : (openSession s).bitCount = 0 := rfl
@[simp] theorem openSession_syncW (s : State) : (openSession s).syncW = 0 := rfl
@[simp] theorem openSession_addrBuf (s : State) : (openSession s).addrBuf = 0 := rfl
@[simp] theorem openSession_addrLen (s : State) : (openSession s).addrLen = 0 := rfl
@[simp] theorem openSession_frameStart (s : State) : (openSession s).frameStart = 0 := rfl
@[simp] theorem openSession_addrStart (s : State) : (openSession s).addrStart = 0 := rfl
@[simp] theorem openSession_lastBitEnd (s : State) : (openSession s).lastBitEnd = 0 := rfl
@[simp] theorem openSession_btnStart (s : State) : (openSession s).btnStart = 0 := rfl
@[simp] theorem openSession_antiStart (s : State) : (openSession s).antiStart = 0 := rfl
@[simp] theorem openSession_recOut (s : State) : (openSession s).recOut = s.recOut := rfl
@[simp] theorem openSession_cmdIn (s : State) : (openSession s).cmdIn = s.cmdIn := rfl
@[simp] theorem openSession_turns (s : State) : (openSession s).turns = s.turns := rfl
@[simp] theorem openSession_taken (s : State) : (openSession s).taken = s.taken := rfl

/-! ### closeSession -/

@[simp] theorem closeSession_sampleRate (s : State) : (closeSession s).sampleRate = s.sampleRate := rfl
@[simp] theorem closeSession_addressSize (s : State) : (closeSession s).addressSize = s.addressSize := rfl
@[simp] theorem closeSession_runState (s : State) : (closeSession s).runState = .config := rfl
@[simp] theorem closeSession_faultCode (s : State) : (closeSession s).faultCode = s.faultCode := rfl
@[simp] theorem closeSession_faultCmd (s : State) : (closeSession s).faultCmd = s.faultCmd := rfl
@[simp] theorem closeSession_seeded (s : State) : (closeSession s).seeded = s.seeded := rfl
@[simp] theorem closeSession_lastPos (s : State) : (closeSession s).lastPos = s.lastPos := rfl
@[simp] theorem closeSession_lastLvl (s : State) : (closeSession s).lastLvl = s.lastLvl := rfl
@[simp] theorem closeSession_inFrame (s : State) : (closeSession s).inFrame = s.inFrame := rfl
@[simp] theorem closeSession_bitCount (s : State) : (closeSession s).bitCount = s.bitCount := rfl
@[simp] theorem closeSession_syncW (s : State) : (closeSession s).syncW = s.syncW := rfl
@[simp] theorem closeSession_addrBuf (s : State) : (closeSession s).addrBuf = s.addrBuf := rfl
@[simp] theorem closeSession_addrLen (s : State) : (closeSession s).addrLen = s.addrLen := rfl
@[simp] theorem closeSession_frameStart (s : State) : (closeSession s).frameStart = s.frameStart := rfl
@[simp] theorem closeSession_addrStart (s : State) : (closeSession s).addrStart = s.addrStart := rfl
@[simp] theorem closeSession_lastBitEnd (s : State) : (closeSession s).lastBitEnd = s.lastBitEnd := rfl
@[simp] theorem closeSession_btnStart (s : State) : (closeSession s).btnStart = s.btnStart := rfl
@[simp] theorem closeSession_antiStart (s : State) : (closeSession s).antiStart = s.antiStart := rfl
@[simp] theorem closeSession_recOut (s : State) : (closeSession s).recOut = s.recOut := rfl
@[simp] theorem closeSession_cmdIn (s : State) : (closeSession s).cmdIn = s.cmdIn := rfl
@[simp] theorem closeSession_turns (s : State) : (closeSession s).turns = s.turns := rfl
@[simp] theorem closeSession_taken (s : State) : (closeSession s).taken = s.taken := rfl

/-! ### latchEdge -/

@[simp] theorem latchEdge_sampleRate (p : Pos) (l : Bool) (s : State) :
    (latchEdge p l s).sampleRate = s.sampleRate := rfl
@[simp] theorem latchEdge_addressSize (p : Pos) (l : Bool) (s : State) :
    (latchEdge p l s).addressSize = s.addressSize := rfl
@[simp] theorem latchEdge_runState (p : Pos) (l : Bool) (s : State) : (latchEdge p l s).runState = s.runState := rfl
@[simp] theorem latchEdge_faultCode (p : Pos) (l : Bool) (s : State) :
    (latchEdge p l s).faultCode = s.faultCode := rfl
@[simp] theorem latchEdge_faultCmd (p : Pos) (l : Bool) (s : State) : (latchEdge p l s).faultCmd = s.faultCmd := rfl
@[simp] theorem latchEdge_seeded (p : Pos) (l : Bool) (s : State) : (latchEdge p l s).seeded = s.seeded := rfl
@[simp] theorem latchEdge_lastPos (p : Pos) (l : Bool) (s : State) : (latchEdge p l s).lastPos = p := rfl
@[simp] theorem latchEdge_lastLvl (p : Pos) (l : Bool) (s : State) : (latchEdge p l s).lastLvl = l := rfl
@[simp] theorem latchEdge_inFrame (p : Pos) (l : Bool) (s : State) : (latchEdge p l s).inFrame = s.inFrame := rfl
@[simp] theorem latchEdge_bitCount (p : Pos) (l : Bool) (s : State) : (latchEdge p l s).bitCount = s.bitCount := rfl
@[simp] theorem latchEdge_syncW (p : Pos) (l : Bool) (s : State) : (latchEdge p l s).syncW = s.syncW := rfl
@[simp] theorem latchEdge_addrBuf (p : Pos) (l : Bool) (s : State) : (latchEdge p l s).addrBuf = s.addrBuf := rfl
@[simp] theorem latchEdge_addrLen (p : Pos) (l : Bool) (s : State) : (latchEdge p l s).addrLen = s.addrLen := rfl
@[simp] theorem latchEdge_frameStart (p : Pos) (l : Bool) (s : State) :
    (latchEdge p l s).frameStart = s.frameStart := rfl
@[simp] theorem latchEdge_addrStart (p : Pos) (l : Bool) (s : State) :
    (latchEdge p l s).addrStart = s.addrStart := rfl
@[simp] theorem latchEdge_lastBitEnd (p : Pos) (l : Bool) (s : State) :
    (latchEdge p l s).lastBitEnd = s.lastBitEnd := rfl
@[simp] theorem latchEdge_btnStart (p : Pos) (l : Bool) (s : State) : (latchEdge p l s).btnStart = s.btnStart := rfl
@[simp] theorem latchEdge_antiStart (p : Pos) (l : Bool) (s : State) :
    (latchEdge p l s).antiStart = s.antiStart := rfl
@[simp] theorem latchEdge_recOut (p : Pos) (l : Bool) (s : State) : (latchEdge p l s).recOut = s.recOut := rfl
@[simp] theorem latchEdge_cmdIn (p : Pos) (l : Bool) (s : State) : (latchEdge p l s).cmdIn = s.cmdIn := rfl
@[simp] theorem latchEdge_turns (p : Pos) (l : Bool) (s : State) : (latchEdge p l s).turns = s.turns := rfl
@[simp] theorem latchEdge_taken (p : Pos) (l : Bool) (s : State) : (latchEdge p l s).taken = s.taken := rfl

/-! ### seedEdge -/

@[simp] theorem seedEdge_sampleRate (p : Pos) (l : Bool) (s : State) :
    (seedEdge p l s).sampleRate = s.sampleRate := rfl
@[simp] theorem seedEdge_addressSize (p : Pos) (l : Bool) (s : State) :
    (seedEdge p l s).addressSize = s.addressSize := rfl
@[simp] theorem seedEdge_runState (p : Pos) (l : Bool) (s : State) : (seedEdge p l s).runState = s.runState := rfl
@[simp] theorem seedEdge_faultCode (p : Pos) (l : Bool) (s : State) : (seedEdge p l s).faultCode = s.faultCode := rfl
@[simp] theorem seedEdge_faultCmd (p : Pos) (l : Bool) (s : State) : (seedEdge p l s).faultCmd = s.faultCmd := rfl
@[simp] theorem seedEdge_seeded (p : Pos) (l : Bool) (s : State) : (seedEdge p l s).seeded = true := rfl
@[simp] theorem seedEdge_lastPos (p : Pos) (l : Bool) (s : State) : (seedEdge p l s).lastPos = p := rfl
@[simp] theorem seedEdge_lastLvl (p : Pos) (l : Bool) (s : State) : (seedEdge p l s).lastLvl = l := rfl
@[simp] theorem seedEdge_inFrame (p : Pos) (l : Bool) (s : State) : (seedEdge p l s).inFrame = s.inFrame := rfl
@[simp] theorem seedEdge_bitCount (p : Pos) (l : Bool) (s : State) : (seedEdge p l s).bitCount = s.bitCount := rfl
@[simp] theorem seedEdge_syncW (p : Pos) (l : Bool) (s : State) : (seedEdge p l s).syncW = s.syncW := rfl
@[simp] theorem seedEdge_addrBuf (p : Pos) (l : Bool) (s : State) : (seedEdge p l s).addrBuf = s.addrBuf := rfl
@[simp] theorem seedEdge_addrLen (p : Pos) (l : Bool) (s : State) : (seedEdge p l s).addrLen = s.addrLen := rfl
@[simp] theorem seedEdge_frameStart (p : Pos) (l : Bool) (s : State) :
    (seedEdge p l s).frameStart = s.frameStart := rfl
@[simp] theorem seedEdge_addrStart (p : Pos) (l : Bool) (s : State) : (seedEdge p l s).addrStart = s.addrStart := rfl
@[simp] theorem seedEdge_lastBitEnd (p : Pos) (l : Bool) (s : State) :
    (seedEdge p l s).lastBitEnd = s.lastBitEnd := rfl
@[simp] theorem seedEdge_btnStart (p : Pos) (l : Bool) (s : State) : (seedEdge p l s).btnStart = s.btnStart := rfl
@[simp] theorem seedEdge_antiStart (p : Pos) (l : Bool) (s : State) : (seedEdge p l s).antiStart = s.antiStart := rfl
@[simp] theorem seedEdge_recOut (p : Pos) (l : Bool) (s : State) : (seedEdge p l s).recOut = s.recOut := rfl
@[simp] theorem seedEdge_cmdIn (p : Pos) (l : Bool) (s : State) : (seedEdge p l s).cmdIn = s.cmdIn := rfl
@[simp] theorem seedEdge_turns (p : Pos) (l : Bool) (s : State) : (seedEdge p l s).turns = s.turns := rfl
@[simp] theorem seedEdge_taken (p : Pos) (l : Bool) (s : State) : (seedEdge p l s).taken = s.taken := rfl

/-! ### beginFrame -/

@[simp] theorem beginFrame_sampleRate (p : Pulse) (s : State) : (beginFrame p s).sampleRate = s.sampleRate := rfl
@[simp] theorem beginFrame_addressSize (p : Pulse) (s : State) : (beginFrame p s).addressSize = s.addressSize := rfl
@[simp] theorem beginFrame_runState (p : Pulse) (s : State) : (beginFrame p s).runState = s.runState := rfl
@[simp] theorem beginFrame_faultCode (p : Pulse) (s : State) : (beginFrame p s).faultCode = s.faultCode := rfl
@[simp] theorem beginFrame_faultCmd (p : Pulse) (s : State) : (beginFrame p s).faultCmd = s.faultCmd := rfl
@[simp] theorem beginFrame_seeded (p : Pulse) (s : State) : (beginFrame p s).seeded = s.seeded := rfl
@[simp] theorem beginFrame_lastPos (p : Pulse) (s : State) : (beginFrame p s).lastPos = s.lastPos := rfl
@[simp] theorem beginFrame_lastLvl (p : Pulse) (s : State) : (beginFrame p s).lastLvl = s.lastLvl := rfl
@[simp] theorem beginFrame_inFrame (p : Pulse) (s : State) :
    (beginFrame p s).inFrame = (if syncGuard p.width then true else s.inFrame) := rfl
@[simp] theorem beginFrame_bitCount (p : Pulse) (s : State) : (beginFrame p s).bitCount = 0 := rfl
@[simp] theorem beginFrame_syncW (p : Pulse) (s : State) : (beginFrame p s).syncW = p.width := rfl
@[simp] theorem beginFrame_addrBuf (p : Pulse) (s : State) : (beginFrame p s).addrBuf = 0 := rfl
@[simp] theorem beginFrame_addrLen (p : Pulse) (s : State) : (beginFrame p s).addrLen = 0 := rfl
@[simp] theorem beginFrame_frameStart (p : Pulse) (s : State) : (beginFrame p s).frameStart = p.start := rfl
@[simp] theorem beginFrame_addrStart (p : Pulse) (s : State) : (beginFrame p s).addrStart = p.stop := rfl
@[simp] theorem beginFrame_lastBitEnd (p : Pulse) (s : State) : (beginFrame p s).lastBitEnd = p.stop := rfl
@[simp] theorem beginFrame_btnStart (p : Pulse) (s : State) : (beginFrame p s).btnStart = p.stop := rfl
@[simp] theorem beginFrame_antiStart (p : Pulse) (s : State) : (beginFrame p s).antiStart = p.stop := rfl
@[simp] theorem beginFrame_recOut (p : Pulse) (s : State) :
    (beginFrame p s).recOut = s.recOut ++ [⟨.time, p.start, p.stop, p.width⟩, ⟨.pilot, p.start, p.stop, 0⟩,
      ⟨.lambda, p.start, p.stop, p.width⟩] := by
  simp [beginFrame]
@[simp] theorem beginFrame_cmdIn (p : Pulse) (s : State) : (beginFrame p s).cmdIn = s.cmdIn := rfl
@[simp] theorem beginFrame_turns (p : Pulse) (s : State) : (beginFrame p s).turns = s.turns := rfl
@[simp] theorem beginFrame_taken (p : Pulse) (s : State) : (beginFrame p s).taken = s.taken := rfl

/-! ### abandonFrame -/

@[simp] theorem abandonFrame_sampleRate (s : State) : (abandonFrame s).sampleRate = s.sampleRate := rfl
@[simp] theorem abandonFrame_addressSize (s : State) : (abandonFrame s).addressSize = s.addressSize := rfl
@[simp] theorem abandonFrame_runState (s : State) : (abandonFrame s).runState = s.runState := rfl
@[simp] theorem abandonFrame_faultCode (s : State) : (abandonFrame s).faultCode = s.faultCode := rfl
@[simp] theorem abandonFrame_faultCmd (s : State) : (abandonFrame s).faultCmd = s.faultCmd := rfl
@[simp] theorem abandonFrame_seeded (s : State) : (abandonFrame s).seeded = s.seeded := rfl
@[simp] theorem abandonFrame_lastPos (s : State) : (abandonFrame s).lastPos = s.lastPos := rfl
@[simp] theorem abandonFrame_lastLvl (s : State) : (abandonFrame s).lastLvl = s.lastLvl := rfl
@[simp] theorem abandonFrame_inFrame (s : State) : (abandonFrame s).inFrame = false := rfl
@[simp] theorem abandonFrame_bitCount (s : State) : (abandonFrame s).bitCount = s.bitCount := rfl
@[simp] theorem abandonFrame_syncW (s : State) : (abandonFrame s).syncW = s.syncW := rfl
@[simp] theorem abandonFrame_addrBuf (s : State) : (abandonFrame s).addrBuf = s.addrBuf := rfl
@[simp] theorem abandonFrame_addrLen (s : State) : (abandonFrame s).addrLen = s.addrLen := rfl
@[simp] theorem abandonFrame_frameStart (s : State) : (abandonFrame s).frameStart = s.frameStart := rfl
@[simp] theorem abandonFrame_addrStart (s : State) : (abandonFrame s).addrStart = s.addrStart := rfl
@[simp] theorem abandonFrame_lastBitEnd (s : State) : (abandonFrame s).lastBitEnd = s.lastBitEnd := rfl
@[simp] theorem abandonFrame_btnStart (s : State) : (abandonFrame s).btnStart = s.btnStart := rfl
@[simp] theorem abandonFrame_antiStart (s : State) : (abandonFrame s).antiStart = s.antiStart := rfl
@[simp] theorem abandonFrame_recOut (s : State) : (abandonFrame s).recOut = s.recOut := rfl
@[simp] theorem abandonFrame_cmdIn (s : State) : (abandonFrame s).cmdIn = s.cmdIn := rfl
@[simp] theorem abandonFrame_turns (s : State) : (abandonFrame s).turns = s.turns := rfl
@[simp] theorem abandonFrame_taken (s : State) : (abandonFrame s).taken = s.taken := rfl

/-! ### consumeMarker -/

@[simp] theorem consumeMarker_sampleRate (e : Pos) (s : State) : (consumeMarker e s).sampleRate = s.sampleRate := rfl
@[simp] theorem consumeMarker_addressSize (e : Pos) (s : State) :
    (consumeMarker e s).addressSize = s.addressSize := rfl
@[simp] theorem consumeMarker_runState (e : Pos) (s : State) : (consumeMarker e s).runState = s.runState := rfl
@[simp] theorem consumeMarker_faultCode (e : Pos) (s : State) : (consumeMarker e s).faultCode = s.faultCode := rfl
@[simp] theorem consumeMarker_faultCmd (e : Pos) (s : State) : (consumeMarker e s).faultCmd = s.faultCmd := rfl
@[simp] theorem consumeMarker_seeded (e : Pos) (s : State) : (consumeMarker e s).seeded = s.seeded := rfl
@[simp] theorem consumeMarker_lastPos (e : Pos) (s : State) : (consumeMarker e s).lastPos = s.lastPos := rfl
@[simp] theorem consumeMarker_lastLvl (e : Pos) (s : State) : (consumeMarker e s).lastLvl = s.lastLvl := rfl
@[simp] theorem consumeMarker_inFrame (e : Pos) (s : State) : (consumeMarker e s).inFrame = s.inFrame := rfl
@[simp] theorem consumeMarker_bitCount (e : Pos) (s : State) : (consumeMarker e s).bitCount = 1 := rfl
@[simp] theorem consumeMarker_syncW (e : Pos) (s : State) : (consumeMarker e s).syncW = s.syncW := rfl
@[simp] theorem consumeMarker_addrBuf (e : Pos) (s : State) : (consumeMarker e s).addrBuf = s.addrBuf := rfl
@[simp] theorem consumeMarker_addrLen (e : Pos) (s : State) : (consumeMarker e s).addrLen = s.addrLen := rfl
@[simp] theorem consumeMarker_frameStart (e : Pos) (s : State) : (consumeMarker e s).frameStart = s.frameStart := rfl
@[simp] theorem consumeMarker_addrStart (e : Pos) (s : State) : (consumeMarker e s).addrStart = s.addrStart := rfl
@[simp] theorem consumeMarker_lastBitEnd (e : Pos) (s : State) : (consumeMarker e s).lastBitEnd = e := rfl
@[simp] theorem consumeMarker_btnStart (e : Pos) (s : State) : (consumeMarker e s).btnStart = s.btnStart := rfl
@[simp] theorem consumeMarker_antiStart (e : Pos) (s : State) : (consumeMarker e s).antiStart = s.antiStart := rfl
@[simp] theorem consumeMarker_recOut (e : Pos) (s : State) : (consumeMarker e s).recOut = s.recOut := rfl
@[simp] theorem consumeMarker_cmdIn (e : Pos) (s : State) : (consumeMarker e s).cmdIn = s.cmdIn := rfl
@[simp] theorem consumeMarker_turns (e : Pos) (s : State) : (consumeMarker e s).turns = s.turns := rfl
@[simp] theorem consumeMarker_taken (e : Pos) (s : State) : (consumeMarker e s).taken = s.taken := rfl

/-! ### appendBit -/

@[simp] theorem appendBit_sampleRate (b : Bool) (k : Nat) (s : State) :
    (appendBit b k s).sampleRate = s.sampleRate := by
  unfold appendBit; split <;> rfl
@[simp] theorem appendBit_addressSize (b : Bool) (k : Nat) (s : State) :
    (appendBit b k s).addressSize = s.addressSize := by
  unfold appendBit; split <;> rfl
@[simp] theorem appendBit_runState (b : Bool) (k : Nat) (s : State) : (appendBit b k s).runState = s.runState := by
  unfold appendBit; split <;> rfl
@[simp] theorem appendBit_faultCode (b : Bool) (k : Nat) (s : State) : (appendBit b k s).faultCode = s.faultCode := by
  unfold appendBit; split <;> rfl
@[simp] theorem appendBit_faultCmd (b : Bool) (k : Nat) (s : State) : (appendBit b k s).faultCmd = s.faultCmd := by
  unfold appendBit; split <;> rfl
@[simp] theorem appendBit_seeded (b : Bool) (k : Nat) (s : State) : (appendBit b k s).seeded = s.seeded := by
  unfold appendBit; split <;> rfl
@[simp] theorem appendBit_lastPos (b : Bool) (k : Nat) (s : State) : (appendBit b k s).lastPos = s.lastPos := by
  unfold appendBit; split <;> rfl
@[simp] theorem appendBit_lastLvl (b : Bool) (k : Nat) (s : State) : (appendBit b k s).lastLvl = s.lastLvl := by
  unfold appendBit; split <;> rfl
@[simp] theorem appendBit_inFrame (b : Bool) (k : Nat) (s : State) : (appendBit b k s).inFrame = s.inFrame := by
  unfold appendBit; split <;> rfl
@[simp] theorem appendBit_bitCount (b : Bool) (k : Nat) (s : State) : (appendBit b k s).bitCount = s.bitCount := by
  unfold appendBit; split <;> rfl
@[simp] theorem appendBit_syncW (b : Bool) (k : Nat) (s : State) : (appendBit b k s).syncW = s.syncW := by
  unfold appendBit; split <;> rfl
@[simp] theorem appendBit_addrBuf (b : Bool) (k : Nat) (s : State) :
    (appendBit b k s).addrBuf = if k ≤ s.addressSize.toNat then BitVec.ofNat 28 (s.addrBuf.toNat * 2 + b.toNat) else s.addrBuf := by
  unfold appendBit; split <;> rfl
@[simp] theorem appendBit_addrLen (b : Bool) (k : Nat) (s : State) :
    (appendBit b k s).addrLen = if k ≤ s.addressSize.toNat then s.addrLen + 1 else s.addrLen := by
  unfold appendBit; split <;> rfl
@[simp] theorem appendBit_frameStart (b : Bool) (k : Nat) (s : State) :
    (appendBit b k s).frameStart = s.frameStart := by
  unfold appendBit; split <;> rfl
@[simp] theorem appendBit_addrStart (b : Bool) (k : Nat) (s : State) : (appendBit b k s).addrStart = s.addrStart := by
  unfold appendBit; split <;> rfl
@[simp] theorem appendBit_lastBitEnd (b : Bool) (k : Nat) (s : State) :
    (appendBit b k s).lastBitEnd = s.lastBitEnd := by
  unfold appendBit; split <;> rfl
@[simp] theorem appendBit_btnStart (b : Bool) (k : Nat) (s : State) : (appendBit b k s).btnStart = s.btnStart := by
  unfold appendBit; split <;> rfl
@[simp] theorem appendBit_antiStart (b : Bool) (k : Nat) (s : State) : (appendBit b k s).antiStart = s.antiStart := by
  unfold appendBit; split <;> rfl
@[simp] theorem appendBit_recOut (b : Bool) (k : Nat) (s : State) : (appendBit b k s).recOut = s.recOut := by
  unfold appendBit; split <;> rfl
@[simp] theorem appendBit_cmdIn (b : Bool) (k : Nat) (s : State) : (appendBit b k s).cmdIn = s.cmdIn := by
  unfold appendBit; split <;> rfl
@[simp] theorem appendBit_turns (b : Bool) (k : Nat) (s : State) : (appendBit b k s).turns = s.turns := by
  unfold appendBit; split <;> rfl
@[simp] theorem appendBit_taken (b : Bool) (k : Nat) (s : State) : (appendBit b k s).taken = s.taken := by
  unfold appendBit; split <;> rfl

/-! ### recordBit -/

@[simp] theorem recordBit_sampleRate (b : Bool) (e : Pos) (s : State) :
    (recordBit b e s).sampleRate = s.sampleRate := rfl
@[simp] theorem recordBit_addressSize (b : Bool) (e : Pos) (s : State) :
    (recordBit b e s).addressSize = s.addressSize := rfl
@[simp] theorem recordBit_runState (b : Bool) (e : Pos) (s : State) : (recordBit b e s).runState = s.runState := rfl
@[simp] theorem recordBit_faultCode (b : Bool) (e : Pos) (s : State) :
    (recordBit b e s).faultCode = s.faultCode := rfl
@[simp] theorem recordBit_faultCmd (b : Bool) (e : Pos) (s : State) : (recordBit b e s).faultCmd = s.faultCmd := rfl
@[simp] theorem recordBit_seeded (b : Bool) (e : Pos) (s : State) : (recordBit b e s).seeded = s.seeded := rfl
@[simp] theorem recordBit_lastPos (b : Bool) (e : Pos) (s : State) : (recordBit b e s).lastPos = s.lastPos := rfl
@[simp] theorem recordBit_lastLvl (b : Bool) (e : Pos) (s : State) : (recordBit b e s).lastLvl = s.lastLvl := rfl
@[simp] theorem recordBit_inFrame (b : Bool) (e : Pos) (s : State) : (recordBit b e s).inFrame = s.inFrame := rfl
@[simp] theorem recordBit_bitCount (b : Bool) (e : Pos) (s : State) : (recordBit b e s).bitCount = s.bitCount := rfl
@[simp] theorem recordBit_syncW (b : Bool) (e : Pos) (s : State) : (recordBit b e s).syncW = s.syncW := rfl
@[simp] theorem recordBit_addrBuf (b : Bool) (e : Pos) (s : State) : (recordBit b e s).addrBuf = s.addrBuf := rfl
@[simp] theorem recordBit_addrLen (b : Bool) (e : Pos) (s : State) : (recordBit b e s).addrLen = s.addrLen := rfl
@[simp] theorem recordBit_frameStart (b : Bool) (e : Pos) (s : State) :
    (recordBit b e s).frameStart = s.frameStart := rfl
@[simp] theorem recordBit_addrStart (b : Bool) (e : Pos) (s : State) :
    (recordBit b e s).addrStart = s.addrStart := rfl
@[simp] theorem recordBit_lastBitEnd (b : Bool) (e : Pos) (s : State) : (recordBit b e s).lastBitEnd = e := rfl
@[simp] theorem recordBit_btnStart (b : Bool) (e : Pos) (s : State) : (recordBit b e s).btnStart = s.btnStart := rfl
@[simp] theorem recordBit_antiStart (b : Bool) (e : Pos) (s : State) :
    (recordBit b e s).antiStart = s.antiStart := rfl
@[simp] theorem recordBit_recOut (b : Bool) (e : Pos) (s : State) :
    (recordBit b e s).recOut = s.recOut ++ [⟨.bit, s.lastBitEnd, e, bitPayload b⟩] := rfl
@[simp] theorem recordBit_cmdIn (b : Bool) (e : Pos) (s : State) : (recordBit b e s).cmdIn = s.cmdIn := rfl
@[simp] theorem recordBit_turns (b : Bool) (e : Pos) (s : State) : (recordBit b e s).turns = s.turns := rfl
@[simp] theorem recordBit_taken (b : Bool) (e : Pos) (s : State) : (recordBit b e s).taken = s.taken := rfl

/-! ### closeAddress -/

@[simp] theorem closeAddress_sampleRate (e : Pos) (k : Nat) (s : State) :
    (closeAddress e k s).sampleRate = s.sampleRate := by
  unfold closeAddress; split <;> rfl
@[simp] theorem closeAddress_addressSize (e : Pos) (k : Nat) (s : State) :
    (closeAddress e k s).addressSize = s.addressSize := by
  unfold closeAddress; split <;> rfl
@[simp] theorem closeAddress_runState (e : Pos) (k : Nat) (s : State) :
    (closeAddress e k s).runState = s.runState := by
  unfold closeAddress; split <;> rfl
@[simp] theorem closeAddress_faultCode (e : Pos) (k : Nat) (s : State) :
    (closeAddress e k s).faultCode = s.faultCode := by
  unfold closeAddress; split <;> rfl
@[simp] theorem closeAddress_faultCmd (e : Pos) (k : Nat) (s : State) :
    (closeAddress e k s).faultCmd = s.faultCmd := by
  unfold closeAddress; split <;> rfl
@[simp] theorem closeAddress_seeded (e : Pos) (k : Nat) (s : State) : (closeAddress e k s).seeded = s.seeded := by
  unfold closeAddress; split <;> rfl
@[simp] theorem closeAddress_lastPos (e : Pos) (k : Nat) (s : State) : (closeAddress e k s).lastPos = s.lastPos := by
  unfold closeAddress; split <;> rfl
@[simp] theorem closeAddress_lastLvl (e : Pos) (k : Nat) (s : State) : (closeAddress e k s).lastLvl = s.lastLvl := by
  unfold closeAddress; split <;> rfl
@[simp] theorem closeAddress_inFrame (e : Pos) (k : Nat) (s : State) : (closeAddress e k s).inFrame = s.inFrame := by
  unfold closeAddress; split <;> rfl
@[simp] theorem closeAddress_bitCount (e : Pos) (k : Nat) (s : State) :
    (closeAddress e k s).bitCount = s.bitCount := by
  unfold closeAddress; split <;> rfl
@[simp] theorem closeAddress_syncW (e : Pos) (k : Nat) (s : State) : (closeAddress e k s).syncW = s.syncW := by
  unfold closeAddress; split <;> rfl
@[simp] theorem closeAddress_addrBuf (e : Pos) (k : Nat) (s : State) : (closeAddress e k s).addrBuf = s.addrBuf := by
  unfold closeAddress; split <;> rfl
@[simp] theorem closeAddress_addrLen (e : Pos) (k : Nat) (s : State) : (closeAddress e k s).addrLen = s.addrLen := by
  unfold closeAddress; split <;> rfl
@[simp] theorem closeAddress_frameStart (e : Pos) (k : Nat) (s : State) :
    (closeAddress e k s).frameStart = s.frameStart := by
  unfold closeAddress; split <;> rfl
@[simp] theorem closeAddress_addrStart (e : Pos) (k : Nat) (s : State) :
    (closeAddress e k s).addrStart = s.addrStart := by
  unfold closeAddress; split <;> rfl
@[simp] theorem closeAddress_lastBitEnd (e : Pos) (k : Nat) (s : State) :
    (closeAddress e k s).lastBitEnd = s.lastBitEnd := by
  unfold closeAddress; split <;> rfl
@[simp] theorem closeAddress_btnStart (e : Pos) (k : Nat) (s : State) :
    (closeAddress e k s).btnStart = if k = s.addressSize.toNat then e else s.btnStart := by
  unfold closeAddress; split <;> rfl
@[simp] theorem closeAddress_antiStart (e : Pos) (k : Nat) (s : State) :
    (closeAddress e k s).antiStart = s.antiStart := by
  unfold closeAddress; split <;> rfl
@[simp] theorem closeAddress_recOut (e : Pos) (k : Nat) (s : State) : (closeAddress e k s).recOut = s.recOut ++
      if k = s.addressSize.toNat then [⟨.address, s.addrStart, e, addressPayload s.addrLen s.addrBuf⟩] else [] := by
  unfold closeAddress; split <;> simp
@[simp] theorem closeAddress_cmdIn (e : Pos) (k : Nat) (s : State) : (closeAddress e k s).cmdIn = s.cmdIn := by
  unfold closeAddress; split <;> rfl
@[simp] theorem closeAddress_turns (e : Pos) (k : Nat) (s : State) : (closeAddress e k s).turns = s.turns := by
  unfold closeAddress; split <;> rfl
@[simp] theorem closeAddress_taken (e : Pos) (k : Nat) (s : State) : (closeAddress e k s).taken = s.taken := by
  unfold closeAddress; split <;> rfl

/-! ### closeButton -/

@[simp] theorem closeButton_sampleRate (e : Pos) (k : Nat) (s : State) :
    (closeButton e k s).sampleRate = s.sampleRate := by
  unfold closeButton; split <;> rfl
@[simp] theorem closeButton_addressSize (e : Pos) (k : Nat) (s : State) :
    (closeButton e k s).addressSize = s.addressSize := by
  unfold closeButton; split <;> rfl
@[simp] theorem closeButton_runState (e : Pos) (k : Nat) (s : State) : (closeButton e k s).runState = s.runState := by
  unfold closeButton; split <;> rfl
@[simp] theorem closeButton_faultCode (e : Pos) (k : Nat) (s : State) :
    (closeButton e k s).faultCode = s.faultCode := by
  unfold closeButton; split <;> rfl
@[simp] theorem closeButton_faultCmd (e : Pos) (k : Nat) (s : State) : (closeButton e k s).faultCmd = s.faultCmd := by
  unfold closeButton; split <;> rfl
@[simp] theorem closeButton_seeded (e : Pos) (k : Nat) (s : State) : (closeButton e k s).seeded = s.seeded := by
  unfold closeButton; split <;> rfl
@[simp] theorem closeButton_lastPos (e : Pos) (k : Nat) (s : State) : (closeButton e k s).lastPos = s.lastPos := by
  unfold closeButton; split <;> rfl
@[simp] theorem closeButton_lastLvl (e : Pos) (k : Nat) (s : State) : (closeButton e k s).lastLvl = s.lastLvl := by
  unfold closeButton; split <;> rfl
@[simp] theorem closeButton_inFrame (e : Pos) (k : Nat) (s : State) : (closeButton e k s).inFrame = s.inFrame := by
  unfold closeButton; split <;> rfl
@[simp] theorem closeButton_bitCount (e : Pos) (k : Nat) (s : State) : (closeButton e k s).bitCount = s.bitCount := by
  unfold closeButton; split <;> rfl
@[simp] theorem closeButton_syncW (e : Pos) (k : Nat) (s : State) : (closeButton e k s).syncW = s.syncW := by
  unfold closeButton; split <;> rfl
@[simp] theorem closeButton_addrBuf (e : Pos) (k : Nat) (s : State) : (closeButton e k s).addrBuf = s.addrBuf := by
  unfold closeButton; split <;> rfl
@[simp] theorem closeButton_addrLen (e : Pos) (k : Nat) (s : State) : (closeButton e k s).addrLen = s.addrLen := by
  unfold closeButton; split <;> rfl
@[simp] theorem closeButton_frameStart (e : Pos) (k : Nat) (s : State) :
    (closeButton e k s).frameStart = s.frameStart := by
  unfold closeButton; split <;> rfl
@[simp] theorem closeButton_addrStart (e : Pos) (k : Nat) (s : State) :
    (closeButton e k s).addrStart = s.addrStart := by
  unfold closeButton; split <;> rfl
@[simp] theorem closeButton_lastBitEnd (e : Pos) (k : Nat) (s : State) :
    (closeButton e k s).lastBitEnd = s.lastBitEnd := by
  unfold closeButton; split <;> rfl
@[simp] theorem closeButton_btnStart (e : Pos) (k : Nat) (s : State) : (closeButton e k s).btnStart = s.btnStart := by
  unfold closeButton; split <;> rfl
@[simp] theorem closeButton_antiStart (e : Pos) (k : Nat) (s : State) :
    (closeButton e k s).antiStart = if k = 24 then e else s.antiStart := by
  unfold closeButton; split <;> rfl
@[simp] theorem closeButton_recOut (e : Pos) (k : Nat) (s : State) :
    (closeButton e k s).recOut = s.recOut ++ if k = 24 then [⟨.btn, s.btnStart, e, 0⟩] else [] := by
  unfold closeButton; split <;> simp
@[simp] theorem closeButton_cmdIn (e : Pos) (k : Nat) (s : State) : (closeButton e k s).cmdIn = s.cmdIn := by
  unfold closeButton; split <;> rfl
@[simp] theorem closeButton_turns (e : Pos) (k : Nat) (s : State) : (closeButton e k s).turns = s.turns := by
  unfold closeButton; split <;> rfl
@[simp] theorem closeButton_taken (e : Pos) (k : Nat) (s : State) : (closeButton e k s).taken = s.taken := by
  unfold closeButton; split <;> rfl

/-! ### advanceCount -/

@[simp] theorem advanceCount_sampleRate (e : Pos) (k : Nat) (s : State) :
    (advanceCount e k s).sampleRate = s.sampleRate := by
  unfold advanceCount; split <;> rfl
@[simp] theorem advanceCount_addressSize (e : Pos) (k : Nat) (s : State) :
    (advanceCount e k s).addressSize = s.addressSize := by
  unfold advanceCount; split <;> rfl
@[simp] theorem advanceCount_runState (e : Pos) (k : Nat) (s : State) :
    (advanceCount e k s).runState = s.runState := by
  unfold advanceCount; split <;> rfl
@[simp] theorem advanceCount_faultCode (e : Pos) (k : Nat) (s : State) :
    (advanceCount e k s).faultCode = s.faultCode := by
  unfold advanceCount; split <;> rfl
@[simp] theorem advanceCount_faultCmd (e : Pos) (k : Nat) (s : State) :
    (advanceCount e k s).faultCmd = s.faultCmd := by
  unfold advanceCount; split <;> rfl
@[simp] theorem advanceCount_seeded (e : Pos) (k : Nat) (s : State) : (advanceCount e k s).seeded = s.seeded := by
  unfold advanceCount; split <;> rfl
@[simp] theorem advanceCount_lastPos (e : Pos) (k : Nat) (s : State) : (advanceCount e k s).lastPos = s.lastPos := by
  unfold advanceCount; split <;> rfl
@[simp] theorem advanceCount_lastLvl (e : Pos) (k : Nat) (s : State) : (advanceCount e k s).lastLvl = s.lastLvl := by
  unfold advanceCount; split <;> rfl
@[simp] theorem advanceCount_inFrame (e : Pos) (k : Nat) (s : State) :
    (advanceCount e k s).inFrame = if k + 1 = 29 then false else s.inFrame := by
  unfold advanceCount; split <;> rfl
@[simp] theorem advanceCount_bitCount (e : Pos) (k : Nat) (s : State) :
    (advanceCount e k s).bitCount = if k + 1 = 29 then 0 else BitVec.ofNat 5 (k + 1) := by
  unfold advanceCount; split <;> rfl
@[simp] theorem advanceCount_syncW (e : Pos) (k : Nat) (s : State) : (advanceCount e k s).syncW = s.syncW := by
  unfold advanceCount; split <;> rfl
@[simp] theorem advanceCount_addrBuf (e : Pos) (k : Nat) (s : State) : (advanceCount e k s).addrBuf = s.addrBuf := by
  unfold advanceCount; split <;> rfl
@[simp] theorem advanceCount_addrLen (e : Pos) (k : Nat) (s : State) : (advanceCount e k s).addrLen = s.addrLen := by
  unfold advanceCount; split <;> rfl
@[simp] theorem advanceCount_frameStart (e : Pos) (k : Nat) (s : State) :
    (advanceCount e k s).frameStart = s.frameStart := by
  unfold advanceCount; split <;> rfl
@[simp] theorem advanceCount_addrStart (e : Pos) (k : Nat) (s : State) :
    (advanceCount e k s).addrStart = s.addrStart := by
  unfold advanceCount; split <;> rfl
@[simp] theorem advanceCount_lastBitEnd (e : Pos) (k : Nat) (s : State) :
    (advanceCount e k s).lastBitEnd = s.lastBitEnd := by
  unfold advanceCount; split <;> rfl
@[simp] theorem advanceCount_btnStart (e : Pos) (k : Nat) (s : State) :
    (advanceCount e k s).btnStart = s.btnStart := by
  unfold advanceCount; split <;> rfl
@[simp] theorem advanceCount_antiStart (e : Pos) (k : Nat) (s : State) :
    (advanceCount e k s).antiStart = s.antiStart := by
  unfold advanceCount; split <;> rfl
@[simp] theorem advanceCount_recOut (e : Pos) (k : Nat) (s : State) :
    (advanceCount e k s).recOut = s.recOut ++ if k + 1 = 29 then [⟨.anti, s.antiStart, e, 0⟩] else [] := by
  unfold advanceCount; split <;> simp
@[simp] theorem advanceCount_cmdIn (e : Pos) (k : Nat) (s : State) : (advanceCount e k s).cmdIn = s.cmdIn := by
  unfold advanceCount; split <;> rfl
@[simp] theorem advanceCount_turns (e : Pos) (k : Nat) (s : State) : (advanceCount e k s).turns = s.turns := by
  unfold advanceCount; split <;> rfl
@[simp] theorem advanceCount_taken (e : Pos) (k : Nat) (s : State) : (advanceCount e k s).taken = s.taken := by
  unfold advanceCount; split <;> rfl

end Sys2Proof.Machine
end

