-- ==== Sys2Proof/Laws/Ops.lean ====
section
/-! SUPPORT. For each shared operation, once, everything it can do; later proofs cite these instead of unfolding. -/

namespace Sys2Proof.Machine

/-! ### The checks before a command's own -/

theorem whenAccepted_of_fault {needs : RunState} {w : CmdWord} {body : State → State} {s : State}
    (h : s.runState = .fault) : whenAccepted needs w body s = s := by
  simp [whenAccepted, h]

theorem whenAccepted_of_accepting {needs : RunState} {w : CmdWord} {body : State → State} {s : State}
    (h : s.runState = needs) (hn : needs ≠ .fault) : whenAccepted needs w body s = body s := by
  subst h; simp [whenAccepted, hn]

theorem whenAccepted_of_wrong {needs : RunState} {w : CmdWord} {body : State → State} {s : State}
    (hf : s.runState ≠ .fault) (hn : s.runState ≠ needs) :
    whenAccepted needs w body s = raiseFault .sequenceError w s := by
  simp [whenAccepted, hf, hn]

/-- The state is unchanged, or the body ran in the accepting RUN_STATE, or SEQUENCE_ERROR was taken. -/
theorem whenAccepted_cases (needs : RunState) (w : CmdWord) (body : State → State) (s : State) :
    (s.runState = .fault ∧ whenAccepted needs w body s = s) ∨
    (s.runState ≠ .fault ∧ s.runState = needs ∧ whenAccepted needs w body s = body s) ∨
    (s.runState ≠ .fault ∧ s.runState ≠ needs ∧ whenAccepted needs w body s = raiseFault .sequenceError w s) := by
  unfold whenAccepted
  by_cases hf : s.runState = .fault
  · exact .inl ⟨hf, if_pos hf⟩
  · by_cases hn : s.runState = needs
    · exact .inr (.inl ⟨hf, hn, by rw [if_neg hf, if_pos hn]⟩)
    · exact .inr (.inr ⟨hf, hn, by rw [if_neg hf, if_neg hn]⟩)

theorem illegalCommand_cases (w : CmdWord) (s : State) :
    (s.runState = .fault ∧ illegalCommand w s = s) ∨
    (s.runState ≠ .fault ∧ illegalCommand w s = raiseFault .illegalCommand w s) := by
  unfold illegalCommand
  by_cases hf : s.runState = .fault
  · exact .inl ⟨hf, if_pos hf⟩
  · exact .inr ⟨hf, if_neg hf⟩

/-! ### The bodies of START and EDGE -/

theorem beginSession_cases (w : CmdWord) (s : State) :
    (s.sampleRate = 0 ∧ beginSession w s = raiseFault .configError w s) ∨
    (s.sampleRate ≠ 0 ∧ beginSession w s = openSession s) := by
  unfold beginSession
  by_cases h : s.sampleRate = 0
  · exact .inl ⟨h, if_pos h⟩
  · exact .inr ⟨h, if_neg h⟩

theorem deliverEdge_cases (w : CmdWord) (pos : Pos) (lvl : Bool) (s : State) :
    (s.seeded = false ∧ lvl = s.lastLvl ∧ deliverEdge w pos lvl s = raiseFault .malformedLevel w s) ∨
    (s.seeded = false ∧ lvl ≠ s.lastLvl ∧ deliverEdge w pos lvl s = seedEdge pos lvl s) ∨
    (s.seeded = true ∧ pos ≤ s.lastPos ∧ deliverEdge w pos lvl s = raiseFault .malformedOrder w s) ∨
    (s.seeded = true ∧ s.lastPos < pos ∧ lvl = s.lastLvl ∧
      deliverEdge w pos lvl s = raiseFault .malformedLevel w s) ∨
    (s.seeded = true ∧ s.lastPos < pos ∧ lvl ≠ s.lastLvl ∧ deliverEdge w pos lvl s = processPulse pos lvl s) := by
  unfold deliverEdge
  cases hs : s.seeded with
  | false =>
    by_cases hl : lvl = s.lastLvl
    · exact .inl ⟨rfl, hl, by simp [hl]⟩
    · exact .inr (.inl ⟨rfl, hl, by simp [hl]⟩)
  | true =>
    by_cases hp : pos ≤ s.lastPos
    · exact .inr (.inr (.inl ⟨rfl, hp, by simp [hp]⟩))
    · have hp' : s.lastPos < pos := BitVec.not_le.mp hp
      by_cases hl : lvl = s.lastLvl
      · exact .inr (.inr (.inr (.inl ⟨rfl, hp', hl, by simp [hp, hl]⟩)))
      · exact .inr (.inr (.inr (.inr ⟨rfl, hp', hl, by simp [hp, hl]⟩)))

/-! ### The classifier and the assembler -/

/-- A pulse whose end is above its start has their difference as its width, at least one sample. -/
theorem Pulse.width_toNat {p : Pulse} (h : p.start < p.stop) :
    p.width.toNat = p.stop.toNat - p.start.toNat ∧ 1 ≤ p.width.toNat := by
  have h' : p.start.toNat < p.stop.toNat := h
  have hb := p.start.isLt
  have hw : p.width.toNat = p.stop.toNat - p.start.toNat := by
    unfold Pulse.width; rw [BitVec.toNat_sub]; omega
  omega

theorem syncWindow_iff (rate : BitVec 32) (width : Pos) :
    syncWindow rate width = true ↔
      92 * rate.toNat < 10000 * width.toNat ∧ 10000 * width.toNat < 138 * rate.toNat := by
  simp [syncWindow]

theorem syncGuard_of_pos {width : Pos} (h : 1 ≤ width.toNat) : syncGuard width = true := by
  simp only [syncGuard, decide_eq_true_eq]; omega

/-- The class of a pulse and what it rests on: sync only in IDLE, a bit or a reject only in frame. -/
theorem classify_cases (p : Pulse) (r : Regs) :
    (classify p r = .ignore) ∨
    (classify p r = .sync ∧ r.inFrame = false ∧ p.value = false ∧ syncWindow r.sampleRate p.width = true) ∨
    ((classify p r = .bit1 ∨ classify p r = .bit0 ∨ classify p r = .reject) ∧ classify p r = band r.syncW p.width ∧
      r.inFrame = true ∧ p.value = true ∧ r.bitCount.toNat < 29) := by
  unfold classify
  split
  · rename_i hf
    split
    · rename_i h; exact .inr (.inl ⟨rfl, hf, h⟩)
    · exact .inl rfl
  · rename_i hf
    split
    · rename_i h
      refine .inr (.inr ⟨?_, rfl, by simpa using hf, h⟩)
      unfold band; split
      · exact .inl rfl
      · split
        · exact .inr (.inl rfl)
        · exact .inr (.inr rfl)
    · exact .inl rfl

/-- One assembler transition: nothing, a new frame, an abandoned frame, the marker or a data bit. -/
theorem assemble_cases (c : PulseClass) (p : Pulse) (s : State) :
    (c = .ignore ∧ assemble c p s = s) ∨
    (c = .sync ∧ assemble c p s = beginFrame p s) ∨
    (c = .reject ∧ assemble c p s = abandonFrame s) ∨
    (∃ b : Bool, c = (if b then .bit1 else .bit0) ∧
      ((s.bitCount = 0 ∧ assemble c p s = consumeMarker p.stop s) ∨
       (s.bitCount ≠ 0 ∧ assemble c p s = dataBit b p.stop s.bitCount.toNat s))) := by
  have take (b : Bool) : (s.bitCount = 0 ∧ takeBit b p.stop s = consumeMarker p.stop s) ∨
      (s.bitCount ≠ 0 ∧ takeBit b p.stop s = dataBit b p.stop s.bitCount.toNat s) := by
    by_cases h : s.bitCount = 0
    · exact .inl ⟨h, if_pos h⟩
    · exact .inr ⟨h, if_neg h⟩
  cases c with
  | ignore => exact .inl ⟨rfl, rfl⟩
  | sync => exact .inr (.inl ⟨rfl, rfl⟩)
  | reject => exact .inr (.inr (.inl ⟨rfl, rfl⟩))
  | bit1 => exact .inr (.inr (.inr ⟨true, rfl, take true⟩))
  | bit0 => exact .inr (.inr (.inr ⟨false, rfl, take false⟩))

/-- The records a data bit appends, in the order of spec/42_frame_assembler.md R161. -/
theorem dataBit_recOut (b : Bool) (e : Pos) (k : Nat) (s : State) :
    (dataBit b e k s).recOut = s.recOut ++ [⟨.bit, s.lastBitEnd, e, bitPayload b⟩]
      ++ (if k = s.addressSize.toNat then
          [⟨.address, s.addrStart, e, addressPayload (appendBit b k s).addrLen (appendBit b k s).addrBuf⟩] else [])
      ++ (if k = 24 then [⟨.btn, if k = s.addressSize.toNat then e else s.btnStart, e, 0⟩] else [])
      ++ (if k + 1 = 29 then [⟨.anti, if k = 24 then e else s.antiStart, e, 0⟩] else []) := by
  simp [dataBit]

/-! ### The channels -/

theorem offerCommand_cases (s : State) :
    (∃ w ws, s.recOut = [] ∧ s.cmdIn = w :: ws ∧ offerCommand s = ({ s with cmdIn := ws }, some w)) ∨
    ((s.recOut ≠ [] ∨ s.cmdIn = []) ∧ offerCommand s = (s, none)) := by
  unfold offerCommand
  split
  · rename_i w ws hr hc; exact .inl ⟨w, ws, hr, hc, rfl⟩
  · rename_i h
    refine .inr ⟨?_, rfl⟩
    cases hr : s.recOut with
    | nil =>
      cases hc : s.cmdIn with
      | nil => exact .inr rfl
      | cons w ws => exact absurd hc (h w ws hr)
    | cons r rs => exact .inl (by simp)

/-- Taking a record moves the oldest one from the channel to the consumer; registers, words and turns stay. -/
theorem takeRecord_cases (s : State) :
    (s.recOut = [] ∧ takeRecord s = s) ∨
    (∃ r rs, s.recOut = r :: rs ∧ takeRecord s = { s with recOut := rs, taken := s.taken ++ [r] }) := by
  unfold takeRecord
  split
  · rename_i h; exact .inl ⟨h, rfl⟩
  · rename_i r rs h; exact .inr ⟨r, rs, h, rfl⟩

/-! ### A command -/

/-- Everything an EDGE can do: dropped, a fault, the seeding edge, or a pulse with one assembler transition. -/
theorem exec_edge_cases {s t : State} {pos : Pos} {lvl : Bool} (h : exec (.edge pos lvl) s = .next t) :
    (s.runState = .fault ∧ t = s) ∨
    (∃ c, c ≠ .none ∧ s.runState ≠ .fault ∧ t = raiseFault c (encode (.edge pos lvl)) s) ∨
    (s.runState = .run ∧ s.seeded = false ∧ t = seedEdge pos lvl s) ∨
    (s.runState = .run ∧ s.seeded = true ∧ s.lastPos < pos ∧ lvl = !s.lastLvl ∧
      (t = latchEdge pos lvl s ∨
       (s.inFrame = false ∧ syncWindow s.sampleRate (pulseOf pos lvl s.toRegs).width = true ∧
         t = beginFrame (pulseOf pos lvl s.toRegs) (latchEdge pos lvl s)) ∨
       (s.inFrame = true ∧ s.bitCount.toNat < 29 ∧ t = abandonFrame (latchEdge pos lvl s)) ∨
       (s.inFrame = true ∧ s.bitCount = 0 ∧ t = consumeMarker pos (latchEdge pos lvl s)) ∨
       (s.inFrame = true ∧ s.bitCount ≠ 0 ∧ s.bitCount.toNat < 29 ∧
         ∃ b, t = dataBit b pos s.bitCount.toNat (latchEdge pos lvl s)))) := by
  simp only [exec, execEdge, Host.Outcome.next.injEq] at h
  rcases whenAccepted_cases .run (encode (.edge pos lvl)) (deliverEdge (encode (.edge pos lvl)) pos lvl) s with
    ⟨h1, h2⟩ | ⟨h1, h0, h2⟩ | ⟨h1, _, h2⟩ <;> rw [h2] at h
  · exact .inl ⟨h1, h.symm⟩
  · rcases deliverEdge_cases (encode (.edge pos lvl)) pos lvl s with
      ⟨_, _, h3⟩ | ⟨hs, _, h3⟩ | ⟨_, _, h3⟩ | ⟨_, _, _, h3⟩ | ⟨hs, hp, hl, h3⟩ <;> rw [h3] at h
    · exact .inr (.inl ⟨_, by simp, h1, h.symm⟩)
    · exact .inr (.inr (.inl ⟨h0, hs, h.symm⟩))
    · exact .inr (.inl ⟨_, by simp, h1, h.symm⟩)
    · exact .inr (.inl ⟨_, by simp, h1, h.symm⟩)
    · refine .inr (.inr (.inr ⟨h0, hs, hp, by simpa [Bool.eq_not] using hl, ?_⟩))
      subst h
      unfold processPulse
      simp only
      rcases classify_cases (pulseOf pos lvl s.toRegs) (latchEdge pos lvl s).toRegs with
        e | ⟨e, e1, _, e2⟩ | ⟨e0, e, e1, _, e2⟩
      · rw [e]; exact .inl rfl
      · rw [e]; exact .inr (.inl ⟨e1, e2, rfl⟩)
      · rcases assemble_cases (classify (pulseOf pos lvl s.toRegs) (latchEdge pos lvl s).toRegs)
          (pulseOf pos lvl s.toRegs) (latchEdge pos lvl s) with
          ⟨q, _⟩ | ⟨q, _⟩ | ⟨q, r⟩ | ⟨b, _, ⟨q, r⟩ | ⟨q, r⟩⟩
        · rw [q] at e0; simp at e0
        · rw [q] at e0; simp at e0
        · exact .inr (.inr (.inl ⟨e1, e2, r⟩))
        · exact .inr (.inr (.inr (.inl ⟨e1, q, r⟩)))
        · exact .inr (.inr (.inr (.inr ⟨e1, q, e2, b, r⟩)))
  · exact .inr (.inl ⟨_, by simp, h1, h.symm⟩)

/-- Everything a command other than EDGE can do. -/
theorem exec_control_cases {i : Instr} {s t : State} (hi : ∀ pos lvl, i ≠ .edge pos lvl) (h : exec i s = .next t) :
    (s.runState = .fault ∧ t = s) ∨
    (∃ c, c ≠ .none ∧ s.runState ≠ .fault ∧ t = raiseFault c (encode i) s) ∨
    (s.runState = .config ∧ ∃ rate, i = .setrate rate ∧ t = setSampleRate rate s) ∨
    (s.runState = .config ∧ ∃ size, i = .setasize size ∧ t = setAddressSize size s) ∨
    (s.runState = .config ∧ s.sampleRate ≠ 0 ∧ i = .start ∧ t = openSession s) ∨
    (s.runState = .run ∧ i = .eos ∧ t = closeSession s) := by
  have fault (needs : RunState) (w : CmdWord) (hw : w = encode i) (body : State → State)
      (ht : whenAccepted needs w body s = t) :
      (s.runState = .fault ∧ t = s) ∨ (s.runState = needs ∧ s.runState ≠ .fault ∧ t = body s) ∨
      (∃ c, c ≠ .none ∧ s.runState ≠ .fault ∧ t = raiseFault c (encode i) s) := by
    subst hw
    rcases whenAccepted_cases needs (encode i) body s with ⟨h1, h2⟩ | ⟨h1, h0, h2⟩ | ⟨h1, _, h2⟩ <;> rw [h2] at ht
    · exact .inl ⟨h1, ht.symm⟩
    · exact .inr (.inl ⟨h0, h1, ht.symm⟩)
    · exact .inr (.inr ⟨_, by simp, h1, ht.symm⟩)
  cases i with
  | edge pos lvl => exact absurd rfl (hi pos lvl)
  | setrate rate =>
    simp only [exec, execSetrate, Host.Outcome.next.injEq] at h
    rcases fault _ _ rfl _ h with hd | ⟨h0, _, ht⟩ | hf
    · exact .inl hd
    · exact .inr (.inr (.inl ⟨h0, rate, rfl, ht⟩))
    · exact .inr (.inl hf)
  | setasize size =>
    simp only [exec, execSetasize, Host.Outcome.next.injEq] at h
    rcases fault _ _ rfl _ h with hd | ⟨h0, _, ht⟩ | hf
    · exact .inl hd
    · exact .inr (.inr (.inr (.inl ⟨h0, size, rfl, ht⟩)))
    · exact .inr (.inl hf)
  | start =>
    simp only [exec, execStart, Host.Outcome.next.injEq] at h
    rcases fault _ _ rfl _ h with hd | ⟨h0, h1, ht⟩ | hf
    · exact .inl hd
    · rcases beginSession_cases (encode .start) s with ⟨_, h3⟩ | ⟨h4, h3⟩ <;> rw [h3] at ht
      · exact .inr (.inl ⟨_, by simp, h1, ht⟩)
      · exact .inr (.inr (.inr (.inr (.inl ⟨h0, h4, rfl, ht⟩))))
    · exact .inr (.inl hf)
  | eos =>
    simp only [exec, execEos, Host.Outcome.next.injEq] at h
    rcases fault _ _ rfl _ h with hd | ⟨h0, _, ht⟩ | hf
    · exact .inl hd
    · exact .inr (.inr (.inr (.inr (.inr ⟨h0, rfl, ht⟩))))
    · exact .inr (.inl hf)

/-! ### A step -/

/-- A run's first step and the rest of it. -/
theorem run_succ (n : Nat) (s : State) :
    Host.Core.run Sys2Proof.core (n + 1) s =
      match step s with
      | .next t => Host.Core.run Sys2Proof.core n t
      | .fault r => .fault r
      | .refused r => .refused r := by
  have unfolded (M : Host.Core) (x : M.State) : M.run (n + 1) x =
      match M.step x with
      | .next t => M.run n t
      | .fault r => .fault r
      | .refused r => .refused r := rfl
  refine (unfolded Sys2Proof.core s).trans ?_
  rw [show Sys2Proof.core.step s = step s from rfl]
  cases step s <;> rfl

/-- An offered word is the one `nextCommand` accepts. -/
theorem nextCommand_of_offered {s : State} {w : CmdWord} {ws : List CmdWord} {ts : List Turn}
    (ht : s.turns = .host :: ts) (hr : s.recOut = []) (hc : s.cmdIn = w :: ws) :
    nextCommand s = ({ s with turns := ts, cmdIn := ws }, some w) := by
  simp [nextCommand, ht, offerCommand, hr, hc]

/-- `exec` always answers a next state. -/
theorem exec_next (i : Instr) (s : State) : ∃ t, exec i s = .next t := by
  cases i <;> exact ⟨_, rfl⟩

/-- Everything a step can do. -/
theorem step_cases {s t : State} (h : step s = .next t) :
    (s.turns = [] ∧ t = s) ∨
    (∃ ts, s.turns = .consumer :: ts ∧ t = takeRecord { s with turns := ts }) ∨
    (∃ cmds ts, s.turns = .reset cmds :: ts ∧ t = resetAction cmds { s with turns := ts }) ∨
    (∃ ts, s.turns = .host :: ts ∧ (s.recOut ≠ [] ∨ s.cmdIn = []) ∧ t = { s with turns := ts }) ∨
    (∃ w ws ts, s.turns = .host :: ts ∧ s.recOut = [] ∧ s.cmdIn = w :: ws ∧
      ((∃ i, decode w = .ok i ∧ exec i { s with turns := ts, cmdIn := ws } = .next t) ∨
       (∃ e, decode w = .error e ∧ t = illegalCommand w { s with turns := ts, cmdIn := ws }))) := by
  unfold step nextCommand at h
  cases hts : s.turns with
  | nil => simp only [hts, Host.Outcome.next.injEq] at h; exact .inl ⟨rfl, h.symm⟩
  | cons turn ts =>
    cases turn with
    | consumer => simp only [hts, Host.Outcome.next.injEq] at h; exact .inr (.inl ⟨ts, rfl, h.symm⟩)
    | reset cmds =>
      simp only [hts, Host.Outcome.next.injEq] at h; exact .inr (.inr (.inl ⟨cmds, ts, rfl, h.symm⟩))
    | host =>
      refine .inr (.inr (.inr ?_))
      rcases offerCommand_cases { s with turns := ts } with ⟨w, ws, hr, hc, ho⟩ | ⟨hn, ho⟩
      · simp only [hts, ho] at h
        refine .inr ⟨w, ws, ts, rfl, hr, hc, ?_⟩
        cases hd : decode w with
        | ok i => simp only [hd] at h; exact .inl ⟨i, rfl, h⟩
        | error e => simp only [hd, Host.Outcome.next.injEq] at h; exact .inr ⟨e, rfl, h.symm⟩
      · simp only [hts, ho, Host.Outcome.next.injEq] at h
        exact .inl ⟨ts, rfl, hn, h.symm⟩

end Sys2Proof.Machine
end

