-- ==== Sys2Proof/Laws/Words.lean ====
section
/-! SUPPORT. The fields of an assembled command word, one lemma a field, and the order of a byte transport. -/

namespace Sys2Proof

@[simp] theorem wordOp_assembleWord (op : BitVec 4) (lvl : Bool) (data : BitVec 64) :
    wordOp (assembleWord op lvl data) = op := by
  unfold wordOp assembleWord
  ext i hi
  simp only [BitVec.getElem_extractLsb', BitVec.getLsbD_append]
  have h1 : ¬ 68 + i < 64 := by omega
  have h2 : ¬ 68 + i - 64 < 1 := by omega
  have h3 : ¬ 68 + i - 64 - 1 < 3 := by omega
  have h4 : 68 + i - 64 - 1 - 3 = i := by omega
  simp [h1, h2, h3, h4, BitVec.getLsbD_eq_getElem hi]

@[simp] theorem wordRsv_assembleWord (op : BitVec 4) (lvl : Bool) (data : BitVec 64) :
    wordRsv (assembleWord op lvl data) = 0 := by
  unfold wordRsv assembleWord
  ext i hi
  simp only [BitVec.getElem_extractLsb', BitVec.getLsbD_append]
  have h1 : ¬ 65 + i < 64 := by omega
  have h2 : ¬ 65 + i - 64 < 1 := by omega
  have h3 : 65 + i - 64 - 1 < 3 := by omega
  simp [h1, h2, h3]

@[simp] theorem wordLvl_assembleWord (op : BitVec 4) (lvl : Bool) (data : BitVec 64) :
    wordLvl (assembleWord op lvl data) = lvl := by
  unfold wordLvl assembleWord
  rw [BitVec.getLsbD_append, BitVec.getLsbD_append]
  simp

@[simp] theorem wordData_assembleWord (op : BitVec 4) (lvl : Bool) (data : BitVec 64) :
    wordData (assembleWord op lvl data) = data := by
  unfold wordData assembleWord
  ext i hi
  simp only [BitVec.getElem_extractLsb', BitVec.getLsbD_append]
  have h1 : 0 + i < 64 := by omega
  simp [hi]

/-- A field of D below bit 64 is that field of the data. -/
theorem extractLsb'_assembleWord (op : BitVec 4) (lvl : Bool) (data : BitVec 64) (lo len : Nat)
    (h : lo + len ≤ 64) : (assembleWord op lvl data).extractLsb' lo len = data.extractLsb' lo len := by
  unfold assembleWord
  ext i hi
  simp only [BitVec.getElem_extractLsb', BitVec.getLsbD_append]
  have h1 : lo + i < 64 := by omega
  simp [h1]

/-- A word is its four fields. -/
theorem word_eq_fields (w : CmdWord) :
    w = wordOp w ++ wordRsv w ++ BitVec.ofBool (wordLvl w) ++ wordData w := by
  unfold wordOp wordRsv wordLvl wordData
  apply BitVec.eq_of_getLsbD_eq
  intro i hi
  simp only [BitVec.getLsbD_append, BitVec.getLsbD_extractLsb']
  split
  · simp_all
  · split
    · have : i = 64 := by omega
      subst this; simp
    · split
      · simp_all [show 65 + (i - 64 - 1) = i by omega]
      · simp [show 68 + (i - 64 - 1 - 3) = i by omega, show i - 64 - 1 - 3 < 4 by omega]

/-- A word with no reserved bit set is assembled from its OP, L and D. -/
theorem assembleWord_fields {w : CmdWord} (h : wordRsv w = 0) :
    assembleWord (wordOp w) (wordLvl w) (wordData w) = w := by
  have he := word_eq_fields w
  rw [h] at he
  exact he.symm

/-- The value of an assembled word, by spec/30_encoding.md R85's formula. -/
theorem assembleWord_toNat (op : BitVec 4) (lvl : Bool) (data : BitVec 64) :
    (assembleWord op lvl data).toNat = op.toNat * 2 ^ 68 + lvl.toNat * 2 ^ 64 + data.toNat := by
  have hd := data.isLt
  have hl : lvl.toNat < 2 := Bool.toNat_lt lvl
  unfold assembleWord
  rw [BitVec.toNat_append, ← Nat.shiftLeft_add_eq_or_of_lt data.isLt, BitVec.toNat_append,
    ← Nat.shiftLeft_add_eq_or_of_lt (BitVec.isLt _), BitVec.toNat_append, ← Nat.shiftLeft_add_eq_or_of_lt (BitVec.isLt _)]
  simp only [Nat.shiftLeft_eq, BitVec.toNat_ofBool, BitVec.toNat_ofNat]
  omega

/-- Little-endian bytes name their number, up to their length. -/
theorem leValue_leBytes (n v : Nat) : leValue (leBytes n v) = v % 256 ^ n := by
  induction n generalizing v with
  | zero => simp [leBytes, leValue, Nat.mod_one]
  | succ n ih =>
    rw [leBytes, leValue, ih, BitVec.toNat_ofNat,
      show (256 : Nat) ^ (n + 1) = 256 * 256 ^ n from Nat.pow_succ', Nat.mod_mul]

@[simp] theorem leBytes_length (n v : Nat) : (leBytes n v).length = n := by
  induction n generalizing v with
  | zero => rfl
  | succ n ih => simp [leBytes, ih]

end Sys2Proof
end

