-- ==== Sys2Proof/Laws/PerInstr.lean ====
section
/-! SUPPORT. A family about the commands as words: the encoder writes only words that the match and mask table of
spec/30_encoding.md R83 calls legal. -/

namespace Sys2Proof.Laws.EncodesLegally

/-- The instruction's word is legal by the table. -/
def Statement (i : Instr) : Prop := legal (encode i) = true

/-- A word that agrees with a row on every bit of the row's mask is legal. -/
theorem legal_of_row {w : CmdWord} (r : EncodingRow) (hr : r ∈ encodingTable) (h : w &&& r.mask = r.value) :
    legal w = true :=
  List.any_eq_true.mpr ⟨r, hr, by simp [EncodingRow.covers, h]⟩

/-- Masking an assembled word field by field. -/
theorem assembleWord_and (op mop : BitVec 4) (mrsv : BitVec 3) (lvl mlvl : Bool) (data mdata : BitVec 64) :
    assembleWord op lvl data &&& (mop ++ mrsv ++ BitVec.ofBool mlvl ++ mdata : BitVec 72) =
      assembleWord (op &&& mop) (lvl && mlvl) (data &&& mdata) := by
  unfold assembleWord
  rw [BitVec.and_append, BitVec.and_append, BitVec.and_append, BitVec.ofBool_and_ofBool, BitVec.zero_and]

/-- A widened operand has no bit under a mask that starts above it. -/
theorem setWidth_and_eq_zero {n : Nat} (v : BitVec n) (m : BitVec 64) (h : ∀ i < n, m.getLsbD i = false) :
    v.setWidth 64 &&& m = 0 := by
  ext i hi
  simp only [BitVec.getElem_and, BitVec.getElem_setWidth]
  by_cases hn : i < n
  · have := h i hn; simp_all
  · simp [BitVec.getLsbD_of_ge v i (by omega)]

theorem setrate (rate : BitVec 32) : Statement (.setrate rate) := by
  refine legal_of_row ⟨0xFFFFFFFFFF00000000#72, 0x100000000000000000#72⟩ (by simp [encodingTable]) ?_
  refine (assembleWord_and 0x1 0xF 0x7 false true (rate.setWidth 64) 0xFFFFFFFF00000000#64).trans ?_
  rw [setWidth_and_eq_zero rate 0xFFFFFFFF00000000#64 (by decide)]
  decide

theorem setasize (size : BitVec 8) : Statement (.setasize size) := by
  refine legal_of_row ⟨0xFFFFFFFFFFFFFFFF00#72, 0x200000000000000000#72⟩ (by simp [encodingTable]) ?_
  refine (assembleWord_and 0x2 0xF 0x7 false true (size.setWidth 64) 0xFFFFFFFFFFFFFF00#64).trans ?_
  rw [setWidth_and_eq_zero size 0xFFFFFFFFFFFFFF00#64 (by decide)]
  decide

theorem start : Statement .start := by
  unfold Statement; decide

theorem edge (pos : Pos) (lvl : Bool) : Statement (.edge pos lvl) := by
  refine legal_of_row ⟨0xFE0000000000000000#72, 0x400000000000000000#72⟩ (by simp [encodingTable]) ?_
  refine (assembleWord_and 0x4 0xF 0x7 lvl false pos 0#64).trans ?_
  simp [assembleWord]

theorem eos : Statement .eos := by
  unfold Statement; decide

end Sys2Proof.Laws.EncodesLegally
end

