-- ==== Sys2Proof/Tests/Slice0.lean ====
section
/-! SUPPORT. Tests: ill-formed words and operands refused, words written out from the spec decoded, at most two small
steps for each command with results taken from spec/95_test_vectors.md, and for every statement with hypotheses a
state and operands that meet them (`witness_…`, named after the statement). -/

namespace Sys2Proof.Tests

open Sys2Proof Sys2Proof.Machine

/-! ### States and answers -/

/-- The next state of an outcome. -/
def after (o : Host.Outcome State Fault Refusal) : Option State :=
  match o with
  | .next s => some s
  | .fault _ => none
  | .refused _ => none

/-- RUN at 1 MHz before the first edge. -/
def fresh : State := { State.reset with sampleRate := 1000000, runState := .run }

/-- RUN at 1 MHz in IDLE, the last edge at 100. -/
def idle (lvl : Bool) : State := { fresh with seeded := true, lastPos := 100, lastLvl := lvl }

/-- In frame at a data-bit count, the line at a level since 20000, after a sync [100, 10100). -/
def framed (lvl : Bool) (count : BitVec 5) (size : BitVec 8) (len : BitVec 5) (buf : BitVec 28) : State :=
  { fresh with
    addressSize := size, seeded := true, lastPos := 20000, lastLvl := lvl, inFrame := true, bitCount := count
    syncW := 10000, addrBuf := buf, addrLen := len, frameStart := 100, addrStart := 10100, lastBitEnd := 19000
    btnStart := 10100, antiStart := 10100 }

/-- A state in which the host offers one word. -/
def offering (w : CmdWord) (s : State) : State := { s with turns := [.host], recOut := [], cmdIn := [w] }

/-- The FAULT state of program P4. -/
def faulted : State :=
  { State.reset with faultCode := .configError, faultCmd := 0x300000000000000000, runState := .fault }

/-- One record on the channel. -/
def oneRecord : Record := ⟨.bit, 1, 2, 0⟩

/-- Data bits of value 1 after a falling edge, each 435 samples low and 435 high. -/
def onesFrom : Nat → Nat → List BitCell
  | 0, _ => []
  | n + 1, pos => ⟨BitVec.ofNat 64 (pos + 435), BitVec.ofNat 64 (pos + 870), true⟩ :: onesFrom n (pos + 870)

theorem onesFrom_follow (n : Nat) : ∀ pos : Nat, pos + 870 * n < 2 ^ 64 →
    CellsFollow 10000 (BitVec.ofNat 64 pos) (onesFrom n pos) := by
  induction n with
  | zero => intro _ _; trivial
  | succ n ih =>
    intro pos h
    refine ⟨?_, ?_, ?_, ih (pos + 870) (by omega)⟩
    · simp only [BitVec.lt_def, BitVec.toNat_ofNat]; omega
    · simp only [BitVec.lt_def, BitVec.toNat_ofNat]; omega
    · simp only [InBitBand, if_true, BitVec.toNat_ofNat, show (10000 : BitVec 64).toNat = 10000 from rfl]; omega

/-! ### WellFormed: what each check refuses (V-EN9 to V-EN16, R86) -/

theorem test_refuses_zero_word :
    legal 0x000000000000000000 = false ∧ decode 0x000000000000000000 = .error .reservedOpcode := by decide

theorem test_refuses_opcode_6 :
    legal 0x600000000000000000 = false ∧ decode 0x600000000000000000 = .error .reservedOpcode := by decide

theorem test_refuses_opcode_f :
    legal 0xF00000000000000000 = false ∧ decode 0xF00000000000000000 = .error .reservedOpcode := by decide

theorem test_refuses_rsv :
    legal 0x320000000000000000 = false ∧ decode 0x320000000000000000 = .error .reservedBits ∧
    decode 0x480000000000000000 = .error .reservedBits := by decide

theorem test_refuses_setrate_level :
    legal 0x110000000000000001 = false ∧ decode 0x110000000000000001 = .error .mustBeZero := by decide

theorem test_refuses_setrate_high_data :
    legal 0x100000000100000000 = false ∧ decode 0x100000000100000000 = .error .mustBeZero := by decide

theorem test_refuses_setasize_high_data :
    legal 0x200000000000000100 = false ∧ decode 0x200000000000000100 = .error .mustBeZero := by decide

theorem test_refuses_start_data :
    legal 0x300000000000000001 = false ∧ decode 0x300000000000000001 = .error .mustBeZero := by decide

theorem test_refuses_eos_data :
    legal 0x500000000000000001 = false ∧ decode 0x500000000000000001 = .error .mustBeZero := by decide

theorem test_refuses_short_bytes : decodeBytes [0, 0, 0, 0, 0, 0, 0, 0x30] = .error .wrongLength := by decide

theorem test_refuses_operands_that_do_not_fit :
    (AsmCmd.setrate (2 ^ 32)).fits = false ∧ (AsmCmd.setasize 256).fits = false ∧
    (AsmCmd.edge (2 ^ 64) 0).fits = false ∧ (AsmCmd.edge 0 2).fits = false := by decide

/-! ### Decode: words written out from the spec (V-EN1 to V-EN8, V-EN17, V-EN18) -/

theorem test_decode_setrate :
    decode 0x1000000000000F4240 = .ok (.setrate 1000000) ∧ decode 0x10000000000000BB80 = .ok (.setrate 48000) ∧
    decode 0x1000000000FFFFFFFF = .ok (.setrate 4294967295) := by decide

theorem test_decode_setasize :
    decode 0x200000000000000016 = .ok (.setasize 22) ∧ decode 0x2000000000000000FF = .ok (.setasize 255) := by decide

theorem test_decode_start : decode 0x300000000000000000 = .ok .start := by decide

theorem test_decode_edge :
    decode 0x410000000000000000 = .ok (.edge 0 true) ∧ decode 0x410000000000002774 = .ok (.edge 10100 true) ∧
    decode 0x40FFFFFFFFFFFFFFFF = .ok (.edge 18446744073709551615 false) := by decide

theorem test_decode_eos : decode 0x500000000000000000 = .ok .eos := by decide

theorem test_bytes_of_the_spec :
    cmdBytes 0x300000000000000000 = [0, 0, 0, 0, 0, 0, 0, 0, 0x30] ∧
    decodeBytes [0x74, 0x27, 0, 0, 0, 0, 0, 0, 0x41] = .ok (.edge 10100 true) := by decide

theorem test_decode_table_words :
    decodeTableWord 72 0x410000000000002774 = some (.edge 10100 true) ∧
    decodeTableWord 72 0x600000000000000000 = none := by decide

theorem test_assembler_line :
    assembleLine ['e', 'd', 'g', 'e', ' ', '1', '0', '1', '0', '0', ',', ' ', '1', ' ', ';', 'x'] =
      .ok (some 0x410000000000002774) ∧
    assembleLine ['S', 'E', 'T', 'A', 'S', 'I', 'Z', 'E', ' ', '0', 'x', '1', '0', '0'] = .error .operandRange := by
  decide

/-! ### Records, status, text (V-EN19, V-EN22, V-EN23, V-RS2, V-RS7, V-FM1, V-FM3) -/

theorem test_record_words :
    (Record.word ⟨.time, 100, 10100, 10000⟩) = 0x00000000000000006400000000000027740000000000002710#200 ∧
    (Record.word ⟨.bit, 10535, 11840, bitPayload true⟩) = 0x3100000000000029270000000000002E400000000000000001#200 ∧
    (Record.word ⟨.address, 10100, 39245, addressPayload 22 0x2B0D79⟩) =
      0x420000000000002774000000000000994D00000001602B0D79#200 := by decide

theorem test_status_at_reset :
    statusWord Regs.reset 0x00 = 0 ∧ statusWord Regs.reset 0x02 = 0x16 ∧ statusWord Regs.reset 0x1F = 0 := by decide

theorem test_status_after_order_fault :
    let r : Regs := { Regs.reset with
      runState := .fault, faultCode := .malformedOrder, faultCmd := 0x4000000000000001F4, seeded := true
      lastPos := 500, lastLvl := true }
    statusWord r 0x00 = 0x2000E ∧ statusWord r 0x0B = 0x1F4 ∧ statusWord r 0x0C = 0x40 := by decide

theorem test_format_duration :
    formatDuration 10000 1000000 = .inBand ⟨.milliseconds, ⟨10000000, 1000000⟩, .hz, ⟨1000000000, 10000000⟩⟩ ∧
    formatDuration 1000 1000000 = .inBand ⟨.milliseconds, ⟨1000000, 1000000⟩, .khz, ⟨1000000, 1000000⟩⟩ := by decide

/-! ### One step of each command -/

/-- V-SC1. -/
theorem test_setrate_in_config :
    (after (exec (.setrate 1000000) State.reset)).map (fun t => (t.sampleRate, t.runState)) =
      some (1000000, .config) := by decide

/-- V-SC7. -/
theorem test_setrate_in_run :
    (after (exec (.setrate 1) fresh)).map (fun t => (t.sampleRate, t.faultCode, t.faultCmd)) =
      some (1000000, .sequenceError, 0x100000000000000001) := by decide

/-- V-SC3. -/
theorem test_setasize_in_config :
    (after (exec (.setasize 12) State.reset)).map (fun t => t.addressSize) = some 12 := by decide

/-- V-SC8. -/
theorem test_setasize_in_run :
    (after (exec (.setasize 3) fresh)).map (fun t => (t.addressSize, t.faultCode)) =
      some (22, .sequenceError) := by decide

/-- V-SC12. -/
theorem test_start_clears_the_old_frame :
    (after (exec .start { framed false 3 22 2 2 with runState := .config })).map
      (fun t => (t.runState, t.inFrame, t.bitCount, t.seeded)) = some (.run, false, 0, false) := by decide

/-- V-SC5. -/
theorem test_start_without_rate :
    (after (exec .start State.reset)).map (fun t => (t.faultCode, t.faultCmd)) =
      some (.configError, 0x300000000000000000) := by decide

/-- V-FA10: ADDRESS and BTN on data bit 24, the span of BTN empty. -/
theorem test_edge_data_bit_24_of_24 :
    (after (exec (.edge 42290 false) { framed true 24 24 23 0x561AF3 with lastPos := 41420, lastBitEnd := 40550 })).map
      (fun t => (t.recOut, t.bitCount)) =
      some ([⟨.bit, 40550, 42290, 0⟩, ⟨.address, 10100, 42290, 0x180AC35E6⟩, ⟨.btn, 42290, 42290, 0⟩], 25) := by
  decide

/-- V-CL31: order is checked before level. -/
theorem test_edge_repeated :
    (after (exec (.edge 10 true) { idle true with lastPos := 10 })).map (fun t => (t.faultCode, t.lastPos)) =
      some (.malformedOrder, 10) := by decide

/-- V-SC11. -/
theorem test_eos_in_frame :
    (after (exec .eos (framed false 3 22 2 2))).map (fun t => (t.runState, t.inFrame, t.bitCount, t.recOut)) =
      some (.config, true, 3, []) := by decide

/-- V-SC10. -/
theorem test_eos_in_config :
    (after (exec .eos State.reset)).map (fun t => t.faultCode) = some .sequenceError := by decide

/-! ### Steps of the channels -/

theorem test_placed_word_runs :
    (after (step (State.reset.withFetchWord 72 0x200000000000000018))).map (fun t => t.addressSize) = some 24 := by
  decide

theorem test_word_waits_for_the_consumer :
    (after (step { fresh with recOut := [oneRecord], cmdIn := [0x500000000000000000], turns := [.host] })).map
      (fun t => (t.runState, t.cmdIn)) = some (.run, [0x500000000000000000]) := by decide

/-! ### Witnesses: words -/

theorem witness_EncodeAfterDecode : decode 0x410000000000002774 = .ok (.edge 10100 true) := by decide

theorem witness_LegalWordsDecode_rows :
    ⟨0xFFFFFFFFFF00000000, 0x100000000000000000⟩ ∈ encodingTable ∧
    (0x1000000000FFFFFFFF : CmdWord) &&& 0xFFFFFFFFFF00000000 = 0x100000000000000000 := by decide

theorem witness_LegalWordsDecode_config :
    Offered (offering 0x510000000000000000 State.reset) 0x510000000000000000 [] [] ∧
    (offering 0x510000000000000000 State.reset).runState ≠ .fault ∧ legal 0x510000000000000000 = false := by decide

theorem witness_LegalWordsDecode_run :
    Offered (offering 0x600000000000000000 fresh) 0x600000000000000000 [] [] ∧
    (offering 0x600000000000000000 fresh).runState ≠ .fault ∧ legal 0x600000000000000000 = false := by decide

/-- The last byte of a word and of a record. -/
theorem witness_ByteTransport :
    (cmdBytes 0x410000000000002774)[8]? = some 0x41 ∧
    (Record.bytes ⟨.btn, 39245, 42290, 0⟩)[24]? = some 0x52 := by decide

/-- The last operand that fits and the first that does not, of each command with operands. -/
theorem witness_AssemblyWordsAreLegal :
    (AsmCmd.setrate (2 ^ 32)).word? = none ∧ (AsmCmd.setrate (2 ^ 32 - 1)).word? = some 0x1000000000FFFFFFFF ∧
    (AsmCmd.setasize 256).word? = none ∧ (AsmCmd.setasize 255).word? = some 0x2000000000000000FF ∧
    (AsmCmd.edge (2 ^ 64) 0).word? = none ∧ (AsmCmd.edge 0 2).word? = none ∧
    (AsmCmd.edge (2 ^ 64 - 1) 0).word? = some 0x40FFFFFFFFFFFFFFFF ∧
    (AsmCmd.edge (2 ^ 64 - 1) 1).word? = some 0x41FFFFFFFFFFFFFFFF := by decide

theorem witness_AddressPayloadLayout :
    let r : Regs := { Regs.reset with addrLen := 22, addrBuf := 0x2B0D79 }
    r.addrLen = 22 ∧ r.addrBuf = 0x2B0D79 ∧ statusWord r 0x05 = 0x1602B0D79 := by decide

theorem witness_StatusPortMap : 0x0D ≤ (0x0D : BitVec 5).toNat ∧ 0x0D ≤ (0x1F : BitVec 5).toNat := by decide

/-! ### Witnesses: session control -/

theorem witness_SetrateWritesSampleRate : State.reset.runState = .config := by decide

theorem witness_SetasizeWritesAddressSize : State.reset.runState = .config := by decide

theorem witness_StartOpensSession :
    ({ State.reset with sampleRate := 1 } : State).runState = .config ∧
    ({ State.reset with sampleRate := 1 } : State).sampleRate ≠ 0 := by decide

theorem witness_EosClosesSession : (framed false 3 22 2 2).runState = .run := by decide

theorem witness_StartWithoutRateFaults_start : State.reset.runState = .config ∧ State.reset.sampleRate = 0 := by decide

theorem witness_StartWithoutRateFaults_edge :
    State.reset.runState ≠ .run ∧
    exec (.edge 1 true) State.reset = .next { State.reset with
      faultCode := .sequenceError, faultCmd := 0x410000000000000001, runState := .fault } :=
  ⟨by decide, rfl⟩

theorem witness_SequenceErrorOutsideHomeState_config :
    Offered (offering 0x410000000000000001 State.reset) 0x410000000000000001 [] [] ∧
    decode 0x410000000000000001 = .ok (.edge 1 true) ∧ State.reset.runState ≠ .fault ∧
    State.reset.runState ≠ homeState (.edge 1 true) := by decide

theorem witness_SequenceErrorOutsideHomeState_run :
    Offered (offering 0x300000000000000000 fresh) 0x300000000000000000 [] [] ∧
    decode 0x300000000000000000 = .ok .start ∧ fresh.runState ≠ .fault ∧ fresh.runState ≠ homeState .start := by
  decide

theorem witness_FaultStateDropsWords_drop :
    Offered (offering 0x600000000000000000 faulted) 0x600000000000000000 [] [] ∧ faulted.runState = .fault := by decide

theorem witness_FaultStateDropsWords_leave :
    let s : State := { faulted with turns := [.reset []] }
    s.runState = .fault ∧ step s = .next State.reset ∧ State.reset.runState ≠ .fault :=
  ⟨by decide, rfl, by decide⟩

theorem witness_FaultStateDropsWords_stay :
    let s : State := { faulted with turns := [.consumer], recOut := [oneRecord] }
    s.runState = .fault ∧ step s = .next { faulted with taken := [oneRecord] } ∧
    ∀ cmds ts, s.turns ≠ .reset cmds :: ts :=
  ⟨by decide, rfl, nofun⟩

/-! ### Witnesses: the checks of EDGE -/

theorem witness_FirstEdgeSeeds :
    fresh.runState = .run ∧ fresh.seeded = false ∧ SessionConsistent fresh.toRegs := by decide

/-- The repeated position itself, the largest position that faults. -/
theorem witness_RepeatedPositionFaults :
    (idle true).runState = .run ∧ (idle true).seeded = true ∧ (100 : Pos) ≤ (idle true).lastPos := by decide

theorem witness_RepeatedLevelFaults_later :
    (idle true).runState = .run ∧ true = (idle true).lastLvl ∧ ((idle true).seeded = true → (idle true).lastPos < 101) := by
  decide

theorem witness_RepeatedLevelFaults_first :
    fresh.runState = .run ∧ false = fresh.lastLvl ∧ (fresh.seeded = true → fresh.lastPos < 0) := by decide

/-- Each fault code is some word's. -/
theorem witness_FaultPriorityAndPrecision_fault :
    Offered (offering 0x300000000000000000 State.reset) 0x300000000000000000 [] [] ∧
    faultFor 0x300000000000000000 Regs.reset = some .configError ∧
    faultFor 0x400000000000000064 (idle true).toRegs = some .malformedOrder ∧
    faultFor 0x410000000000000065 (idle true).toRegs = some .malformedLevel ∧
    faultFor 0x510000000000000000 Regs.reset = some .illegalCommand ∧
    faultFor 0x410000000000000000 Regs.reset = some .sequenceError := by decide

theorem witness_FaultPriorityAndPrecision_none :
    Offered (offering 0x400000000000000065 (idle true)) 0x400000000000000065 [] [] ∧
    faultFor 0x400000000000000065 (idle true).toRegs = none := by decide

/-! ### Witnesses: the classifier -/

/-- The bounds of the rule's two examples, inside and outside. -/
theorem witness_SyncWindowIsTheOpenInterval :
    (1000000 : BitVec 32) ≠ 0 ∧ syncWindow 1000000 9201 = true ∧ syncWindow 1000000 13799 = true ∧
    syncWindow 1000000 9200 = false ∧ syncWindow 1000000 13800 = false ∧ syncWindow 48000 442 = true ∧
    syncWindow 48000 662 = true ∧ syncWindow 48000 441 = false ∧ syncWindow 48000 663 = false := by decide

/-- V-CL18, V-CL21, V-CL24: widths exactly on the three bounds. -/
theorem witness_BandsAreTheOpenIntervals :
    (1000000 : BitVec 32) ≠ 0 ∧ 46 * (201 : Pos).toNat = (9246 : Pos).toNat ∧
    46 * (603 : Pos).toNat = 3 * (9246 : Pos).toNat ∧ 46 * (1005 : Pos).toNat = 5 * (9246 : Pos).toNat ∧
    band 9246 202 = .bit1 ∧ band 9246 604 = .bit0 := by decide

theorem witness_SyncGuardAlwaysHolds : 1 ≤ (1 : Pos).toNat := by decide

theorem witness_SampleRateIsNotReadInFrame :
    (framed false 0 22 0 0).inFrame = true ∧
    exec (.edge 20001 true) (framed false 0 22 0 0) =
      .next { framed false 0 22 0 0 with lastPos := 20001, lastLvl := true } :=
  ⟨by decide, rfl⟩

/-! ### Witnesses: the assembler -/

/-- The narrowest and the widest sync at 1 MHz. -/
theorem witness_SyncPulseBeginsFrame :
    FormsPulse (idle false) 9301 true ∧ (idle false).inFrame = false ∧
    92 * (idle false).sampleRate.toNat < 10000 * samplesTo (idle false) 9301 ∧
    10000 * samplesTo (idle false) 9301 < 138 * (idle false).sampleRate.toNat ∧
    92 * (idle false).sampleRate.toNat < 10000 * samplesTo (idle false) 13899 ∧
    10000 * samplesTo (idle false) 13899 < 138 * (idle false).sampleRate.toNat := by decide

theorem witness_IdlePulseOutsideWindowIsNoOp_high :
    FormsPulse (idle true) 10100 false ∧ (idle true).inFrame = false := by decide

theorem witness_IdlePulseOutsideWindowIsNoOp_narrow :
    FormsPulse (idle false) 9300 true ∧ (idle false).inFrame = false ∧
    10000 * samplesTo (idle false) 9300 ≤ 92 * (idle false).sampleRate.toNat := by decide

theorem witness_IdlePulseOutsideWindowIsNoOp_wide :
    FormsPulse (idle false) 13900 true ∧ (idle false).inFrame = false ∧
    138 * (idle false).sampleRate.toNat ≤ 10000 * samplesTo (idle false) 13900 := by decide

/-- The narrowest Bit1 and the widest Bit0 as markers. -/
theorem witness_BoundaryMarkerRecordsNoBit :
    FormsPulse (framed true 0 22 0 0) 20218 false ∧ (framed true 0 22 0 0).inFrame = true ∧
    (framed true 0 22 0 0).bitCount = 0 ∧
    InBitBand (framed true 0 22 0 0).syncW (samplesTo (framed true 0 22 0 0) 20218) true ∧
    InBitBand (framed true 0 22 0 0).syncW (samplesTo (framed true 0 22 0 0) 21086) false := by decide

/-- The last appended bit. -/
theorem witness_DataBitTransition_appended :
    let s := framed true 22 22 21 0x1586BC
    FormsPulse s 20652 false ∧ s.inFrame = true ∧ s.bitCount ≠ 0 ∧ InBitBand s.syncW (samplesTo s 20652) true ∧
    RegsConsistent s.toRegs ∧ s.bitCount.toNat ≤ s.addressSize.toNat := by decide

/-- The first bit that is not appended. -/
theorem witness_DataBitTransition_not_appended :
    let s := framed true 23 22 22 0x2B0D79
    FormsPulse s 20653 false ∧ s.inFrame = true ∧ s.bitCount ≠ 0 ∧ InBitBand s.syncW (samplesTo s 20653) false ∧
    RegsConsistent s.toRegs ∧ s.addressSize.toNat < s.bitCount.toNat := by decide

/-- Data bit 28, the last one. -/
theorem witness_DataBitTransition_last :
    let s := framed true 28 28 27 0
    FormsPulse s 20435 false ∧ s.inFrame = true ∧ s.bitCount ≠ 0 ∧ InBitBand s.syncW (samplesTo s 20435) true ∧
    RegsConsistent s.toRegs := by decide

/-- The widths next to the bands, 217 and 1087. -/
theorem witness_RejectAbandonsFrame :
    let s := framed true 22 22 21 0
    FormsPulse s 20217 false ∧ s.inFrame = true ∧ RegsConsistent s.toRegs ∧
    ¬ InBitBand s.syncW (samplesTo s 20217) true ∧ ¬ InBitBand s.syncW (samplesTo s 20217) false ∧
    ¬ InBitBand s.syncW (samplesTo s 21087) true ∧ ¬ InBitBand s.syncW (samplesTo s 21087) false := by decide

/-- V-CL26: a sync-width low pulse. -/
theorem witness_InFrameLowPulseIsIgnored :
    FormsPulse (framed false 1 22 0 0) 30000 true ∧ (framed false 1 22 0 0).inFrame = true := by decide

theorem witness_RecordsOfOneCommand :
    exec (.edge 101 true) (idle false) = .next { idle false with lastPos := 101, lastLvl := true } ∧
    (∀ pos lvl, Instr.eos ≠ .edge pos lvl) ∧ exec .eos fresh = .next { fresh with runState := .config } :=
  ⟨rfl, nofun, rfl⟩

theorem witness_AddressRecordLengthIsAddressSize :
    let s := framed true 22 22 21 0x1586BC
    let new : List Record :=
      [⟨.bit, 19000, 20435, 1⟩, ⟨.address, 10100, 20435, 0x1602B0D79⟩]
    RegsConsistent s.toRegs ∧ (after (exec (.edge 20435 false) s)).map (fun t => t.recOut) = some (s.recOut ++ new) := by
  decide

/-- A marker and 28 data bits of value 1. -/
theorem witness_CompleteFrame :
    RegsConsistent (framed true 0 22 0 0).toRegs ∧ FormsPulse (framed true 0 22 0 0) 20435 false ∧
    (framed true 0 22 0 0).inFrame = true ∧ (framed true 0 22 0 0).bitCount = 0 ∧
    InBitBand (framed true 0 22 0 0).syncW (samplesTo (framed true 0 22 0 0) 20435) true ∧
    (onesFrom 28 20435).length = 28 ∧ CellsFollow (framed true 0 22 0 0).syncW 20435 (onesFrom 28 20435) := by
  exact ⟨by decide, by decide, by decide, by decide, by decide, by decide, onesFrom_follow 28 20435 (by decide)⟩

/-! ### Witnesses: the channels and a step -/

theorem witness_StepRunsTheDecodedCommand :
    Offered (offering 0x300000000000000000 State.reset) 0x300000000000000000 [] [] ∧
    decode 0x300000000000000000 = .ok .start ∧ decode 0x320000000000000000 = .error .reservedBits := by decide

theorem witness_ResetValues : ({ faulted with turns := [.reset [7]] } : State).turns = .reset [7] :: [] := by decide

theorem witness_ConsumerTakesOldestRecord :
    let s : State := { idle false with turns := [.consumer], recOut := [oneRecord] }
    s.turns = .consumer :: [] ∧ s.recOut = oneRecord :: [] := by decide

theorem witness_UntakenRecordStallsForever :
    let s : State := { idle false with turns := [.host, .host], recOut := [oneRecord], cmdIn := [0x500000000000000000] }
    s.recOut ≠ [] ∧ ∀ turn ∈ s.turns, turn = .host := by decide

theorem witness_DrainedChannelAcceptsNext :
    let s : State := { idle false with
      turns := [.consumer, .consumer, .host], recOut := [oneRecord, oneRecord], cmdIn := [0x500000000000000000] }
    s.turns = List.replicate s.recOut.length .consumer ++ .host :: [] ∧ s.cmdIn = 0x500000000000000000 :: [] ∧
    decode 0x500000000000000000 = .ok .eos := by decide

theorem witness_WaitingKeepsState : fresh.turns = [] := by decide

/-! ### Witnesses: whole-machine rules -/

/-- Every group of registers is written by some command. -/
theorem witness_RegistersWrittenOnlyByTheirCommands :
    exec (.setrate 5) State.reset = .next { State.reset with sampleRate := 5 } ∧
    exec (.setasize 5) State.reset = .next { State.reset with addressSize := 5 } ∧
    exec .eos fresh = .next { fresh with runState := .config } ∧
    exec .eos State.reset = .next { State.reset with
      faultCode := .sequenceError, faultCmd := 0x500000000000000000, runState := .fault } ∧
    exec (.edge 7 true) fresh = .next { fresh with seeded := true, lastPos := 7, lastLvl := true } :=
  ⟨rfl, rfl, rfl, rfl, rfl⟩

/-- V-FA1: the step of a sync, from a stale count. -/
theorem witness_OnlySyncSetsInFrame :
    let s := offering 0x410000000000002774 (idle false)
    s.inFrame = false ∧ (after (step s)).map (fun t => t.inFrame) = some true := by decide

theorem witness_ConfigurationFixedInSession :
    let s := offering 0x100000000000000001 fresh
    s.runState = .run ∧ (after (step s)).map (fun t => t.sampleRate) = some 1000000 ∧
    ∀ cmds ts, s.turns ≠ .reset cmds :: ts :=
  ⟨by decide, by decide, nofun⟩

/-- A step from a consistent state in the middle of a frame that emits two records. -/
theorem witness_StepKeepsRegisterInvariants :
    let s := offering 0x400000000000004FD3 (framed true 22 22 21 0x1586BC)
    RegsConsistent s.toRegs ∧ (after (step s)).map (fun t => t.bitCount) = some 23 := by decide

theorem witness_StepKeepsSessionAndRecordInvariants :
    let s := offering 0x400000000000004FD3 (framed true 22 22 21 0x1586BC)
    Consistent s ∧ (after (step s)).map (fun t => t.recOut.length) = some 2 := by decide

/-- V-FM1's width and the narrowest one at 1 MHz. -/
theorem witness_SyncDurationIsInMilliseconds :
    syncWindow 1000000 10000 = true ∧ syncWindow 1000000 9201 = true := by decide

end Sys2Proof.Tests
end

