-- ==== Sys2Proof/Proofs/Effects.lean ====
section
/-! What a pulse, a command and a step can do, each as one inductive relation with a named constructor for every
outcome. The invariants and the frame rules are case splits over these relations. -/

namespace Sys2Proof.Machine

/-! ### A data bit as one register update -/

/-- The registers after data bit `k`: the five operations of spec/42_frame_assembler.md R154 to R158 composed. -/
@[simp] theorem dataBit_toRegs (b : Bool) (e : Pos) (k : Nat) (s : State) :
    (dataBit b e k s).toRegs = { s.toRegs with
      addrBuf := (appendBit b k s).addrBuf
      addrLen := (appendBit b k s).addrLen
      lastBitEnd := e
      btnStart := if k = s.addressSize.toNat then e else s.btnStart
      antiStart := if k = 24 then e else s.antiStart
      bitCount := if k + 1 = 29 then 0 else BitVec.ofNat 5 (k + 1)
      inFrame := if k + 1 = 29 then false else s.inFrame } := by
  apply Regs.ext <;> simp [dataBit]

/-- A data bit leaves the host's words, the turns and the taken records alone. -/
theorem dataBit_agents (b : Bool) (e : Pos) (k : Nat) (s : State) :
    (dataBit b e k s).cmdIn = s.cmdIn ∧ (dataBit b e k s).turns = s.turns ∧ (dataBit b e k s).taken = s.taken := by
  simp [dataBit]

/-! ### A pulse -/

/-- What the assembler makes of a pulse, from the state whose last-edge memory has already moved. -/
inductive PulseEffect (p : Pulse) (s : State) : State → Prop
  | ignored : PulseEffect p s s
  | began (hidle : s.inFrame = false) (hwindow : syncWindow s.sampleRate p.width = true) :
      PulseEffect p s (beginFrame p s)
  | abandoned (hframe : s.inFrame = true) : PulseEffect p s (abandonFrame s)
  | marked (hframe : s.inFrame = true) (hcount : s.bitCount = 0) : PulseEffect p s (consumeMarker p.stop s)
  | tookBit (b : Bool) (hframe : s.inFrame = true) (hcount : s.bitCount ≠ 0) :
      PulseEffect p s (dataBit b p.stop s.bitCount.toNat s)

/-- What no pulse changes: configuration, RUN_STATE, the fault registers, SEEDED, the last-edge memory and the
outside agents. -/
theorem PulseEffect.frame {p : Pulse} {s t : State} (h : PulseEffect p s t) :
    t.sampleRate = s.sampleRate ∧ t.addressSize = s.addressSize ∧ t.runState = s.runState ∧
    t.faultCode = s.faultCode ∧ t.faultCmd = s.faultCmd ∧ t.seeded = s.seeded ∧ t.lastPos = s.lastPos ∧
    t.lastLvl = s.lastLvl ∧ t.cmdIn = s.cmdIn ∧ t.turns = s.turns ∧ t.taken = s.taken := by
  cases h with
  | ignored => simp
  | began => simp
  | abandoned => simp
  | marked => simp
  | tookBit b => simp [dataBit_agents]

/-! ### A command -/

/-- What a command can do from a state. -/
inductive ExecEffect (s : State) : Instr → State → Prop
  | dropped {i : Instr} (hfault : s.runState = .fault) : ExecEffect s i s
  | faulted {i : Instr} {c : FaultCode} (hcode : c ≠ .none) (hrun : s.runState ≠ .fault) :
      ExecEffect s i (raiseFault c (encode i) s)
  | rateSet {rate : BitVec 32} (hconfig : s.runState = .config) : ExecEffect s (.setrate rate) (setSampleRate rate s)
  | sizeSet {size : BitVec 8} (hconfig : s.runState = .config) : ExecEffect s (.setasize size) (setAddressSize size s)
  | opened (hconfig : s.runState = .config) (hrate : s.sampleRate ≠ 0) : ExecEffect s .start (openSession s)
  | closed (hrun : s.runState = .run) : ExecEffect s .eos (closeSession s)
  | seeded {pos : Pos} {lvl : Bool} (hrun : s.runState = .run) (hfirst : s.seeded = false) :
      ExecEffect s (.edge pos lvl) (seedEdge pos lvl s)
  | pulsed {pos : Pos} {lvl : Bool} {t : State} (hrun : s.runState = .run) (hseeded : s.seeded = true)
      (hlater : s.lastPos < pos) (heffect : PulseEffect (pulseOf pos lvl s.toRegs) (latchEdge pos lvl s) t) :
      ExecEffect s (.edge pos lvl) t

theorem exec_effect_edge {s t : State} {pos : Pos} {lvl : Bool} (h : exec (.edge pos lvl) s = .next t) :
    ExecEffect s (.edge pos lvl) t := by
  rcases exec_edge_cases h with ⟨hf, rfl⟩ | ⟨c, hc, hr, rfl⟩ | ⟨hr, hs, rfl⟩ | ⟨hr, hs, hp, -, hpulse⟩
  · exact .dropped hf
  · exact .faulted hc hr
  · exact .seeded hr hs
  · refine .pulsed hr hs hp ?_
    rcases hpulse with rfl | ⟨hf, hw, rfl⟩ | ⟨hf, -, rfl⟩ | ⟨hf, h0, rfl⟩ | ⟨hf, h0, -, b, rfl⟩
    · exact .ignored
    · exact .began hf hw
    · exact .abandoned hf
    · exact .marked hf h0
    · exact .tookBit b hf h0

theorem exec_effect {i : Instr} {s t : State} (h : exec i s = .next t) : ExecEffect s i t := by
  by_cases hedge : ∃ pos lvl, i = .edge pos lvl
  · obtain ⟨pos, lvl, rfl⟩ := hedge
    exact exec_effect_edge h
  · rcases exec_control_cases (fun pos lvl hi => hedge ⟨pos, lvl, hi⟩) h with
      ⟨hf, rfl⟩ | ⟨c, hc, hr, rfl⟩ | ⟨hr, rate, rfl, rfl⟩ | ⟨hr, size, rfl, rfl⟩ | ⟨hr, hrate, rfl, rfl⟩ | ⟨hr, rfl, rfl⟩
    · exact .dropped hf
    · exact .faulted hc hr
    · exact .rateSet hr
    · exact .sizeSet hr
    · exact .opened hr hrate
    · exact .closed hr

/-! ### A step -/

/-- What a step can do to the registers and the record channel. A command runs only with the channel empty
(spec/20_memory.md R61). -/
inductive StepEffect (s : State) : State → Prop
  | waited {t : State} (hregs : t.toRegs = s.toRegs) (hrecords : t.recOut <:+ s.recOut) : StepEffect s t
  | reset {t : State} (hregs : t.toRegs = Regs.reset) (hrecords : t.recOut = []) : StepEffect s t
  | illegal {w : CmdWord} {ws : List CmdWord} {ts : List Turn} (hempty : s.recOut = []) (hrun : s.runState ≠ .fault) :
      StepEffect s (raiseFault .illegalCommand w { s with turns := ts, cmdIn := ws })
  | ran {i : Instr} {ws : List CmdWord} {ts : List Turn} {t : State} (hempty : s.recOut = [])
      (heffect : ExecEffect { s with turns := ts, cmdIn := ws } i t) : StepEffect s t

theorem takeRecord_effect (s : State) : (takeRecord s).toRegs = s.toRegs ∧ (takeRecord s).recOut <:+ s.recOut := by
  rcases takeRecord_cases s with ⟨_, h⟩ | ⟨r, rs, hr, h⟩ <;> rw [h]
  · exact ⟨rfl, List.suffix_rfl⟩
  · exact ⟨rfl, hr ▸ List.suffix_cons r rs⟩

theorem step_effect {s t : State} (h : step s = .next t) : StepEffect s t := by
  rcases step_cases h with ⟨_, rfl⟩ | ⟨ts, _, rfl⟩ | ⟨cmds, ts, _, rfl⟩ | ⟨ts, _, _, rfl⟩ |
    ⟨w, ws, ts, _, hempty, _, ⟨i, _, hexec⟩ | ⟨e, _, rfl⟩⟩
  · exact .waited rfl List.suffix_rfl
  · obtain ⟨hregs, hrecords⟩ := takeRecord_effect { s with turns := ts }
    exact .waited hregs hrecords
  · exact .reset rfl rfl
  · exact .waited rfl List.suffix_rfl
  · exact .ran hempty (exec_effect hexec)
  · rcases illegalCommand_cases w { s with turns := ts, cmdIn := ws } with ⟨_, hi⟩ | ⟨hrun, hi⟩ <;> rw [hi]
    · exact .waited rfl List.suffix_rfl
    · exact .illegal hempty hrun

end Sys2Proof.Machine
end

