-- ==== Sys2Proof/Proofs/RegisterInvariants.lean ====
section
/-! The seven invariants of spec/10_state.md R43: each register operation keeps them, hence every command and every
step. -/

namespace Sys2Proof.Machine

theorem regsConsistent_reset : RegsConsistent Regs.reset := by decide

/-! ### Operations outside a frame -/

theorem raiseFault_keeps_regs {c : FaultCode} {w : CmdWord} {s : State} (hcode : c ≠ .none)
    (h : RegsConsistent s.toRegs) : RegsConsistent (raiseFault c w s).toRegs := by
  obtain ⟨hcount, -, hbuf, -, -, hseed, hpos⟩ := h
  exact ⟨hcount, by simp [hcode], hbuf, by simp, by simp, hseed, hpos⟩

theorem setSampleRate_keeps_regs {rate : BitVec 32} {s : State} (hconfig : s.runState = .config)
    (h : RegsConsistent s.toRegs) : RegsConsistent (setSampleRate rate s).toRegs := by
  obtain ⟨hcount, hfault, hbuf, hsize, -, hseed, hpos⟩ := h
  exact ⟨hcount, hfault, hbuf, hsize, by simp [hconfig], hseed, hpos⟩

theorem setAddressSize_keeps_regs {size : BitVec 8} {s : State} (hconfig : s.runState = .config)
    (h : RegsConsistent s.toRegs) : RegsConsistent (setAddressSize size s).toRegs := by
  obtain ⟨hcount, hfault, hbuf, -, -, hseed, hpos⟩ := h
  exact ⟨hcount, hfault, hbuf, by simp [hconfig], by simp [hconfig], hseed, hpos⟩

theorem openSession_keeps_regs {s : State} (hconfig : s.runState = .config)
    (h : RegsConsistent s.toRegs) : RegsConsistent (openSession s).toRegs := by
  obtain ⟨-, hfault, -⟩ := h
  have hnone : s.faultCode = .none := by simpa [hconfig] using hfault
  simp [RegsConsistent, hnone]

theorem closeSession_keeps_regs {s : State} (hrun : s.runState = .run)
    (h : RegsConsistent s.toRegs) : RegsConsistent (closeSession s).toRegs := by
  obtain ⟨hcount, hfault, hbuf, -, -, hseed, hpos⟩ := h
  exact ⟨hcount, by simpa [hrun] using hfault, hbuf, by simp, by simp, hseed, hpos⟩

theorem seedEdge_keeps_regs {pos : Pos} {lvl : Bool} {s : State} (hfirst : s.seeded = false)
    (h : RegsConsistent s.toRegs) : RegsConsistent (seedEdge pos lvl s).toRegs := by
  obtain ⟨hcount, hfault, hbuf, hsize, hframe, hseed, -⟩ := h
  obtain ⟨hidle, -⟩ := hseed hfirst
  exact ⟨hcount, hfault, hbuf, hsize, hframe, by simp, by simp [hidle]⟩

theorem latchEdge_keeps_regs {pos : Pos} {lvl : Bool} {s : State} (hlater : s.lastPos < pos)
    (h : RegsConsistent s.toRegs) : RegsConsistent (latchEdge pos lvl s).toRegs := by
  obtain ⟨hcount, hfault, hbuf, hsize, hframe, hseed, hpos⟩ := h
  refine ⟨hcount, hfault, hbuf, hsize, hframe, hseed, fun hf => ?_⟩
  obtain ⟨hs, hstart, haddr, hlast⟩ := hpos hf
  exact ⟨hs, hstart, haddr, BitVec.le_trans hlast (BitVec.le_of_lt hlater)⟩

/-! ### The assembler's transitions -/

theorem beginFrame_keeps_regs {p : Pulse} {s : State} (hwindow : syncWindow s.sampleRate p.width = true)
    (hseeded : s.seeded = true) (hlater : p.start < p.stop) (hend : p.stop ≤ s.lastPos)
    (h : RegsConsistent s.toRegs) : RegsConsistent (beginFrame p s).toRegs := by
  obtain ⟨-, hfault, -⟩ := h
  exact ⟨by simp, hfault, by simp, by simp, fun _ => ⟨by simp, (syncWindow_iff _ _).mp hwindow⟩, by simp [hseeded],
    fun _ => ⟨hseeded, hlater, BitVec.le_refl _, hend⟩⟩

theorem abandonFrame_keeps_regs {s : State} (h : RegsConsistent s.toRegs) :
    RegsConsistent (abandonFrame s).toRegs := by
  obtain ⟨hcount, hfault, hbuf, hsize, -, hseed, -⟩ := h
  exact ⟨hcount, hfault, hbuf, hsize, by simp, fun hs => ⟨rfl, (hseed hs).2⟩, by simp⟩

theorem consumeMarker_keeps_regs {s : State} (hframe : s.inFrame = true) (hzero : s.bitCount = 0)
    (h : RegsConsistent s.toRegs) : RegsConsistent (consumeMarker s.lastPos s).toRegs := by
  obtain ⟨-, hfault, hbuf, hsize, hopen, -, hpos⟩ := h
  obtain ⟨hseeded, hstart, haddr, hlast⟩ := hpos hframe
  refine ⟨by simp, hfault, hbuf, hsize, fun hrun => ?_, by simp [hseeded],
    fun _ => ⟨hseeded, hstart, BitVec.le_trans haddr hlast, BitVec.le_refl _⟩⟩
  obtain ⟨hlen, hwindow⟩ := hopen hrun
  exact ⟨by simpa [hzero] using hlen, hwindow⟩

/-- The append of data bit `k` fits its registers: R43 bounds ADDR_LEN by `k - 1`, so neither the length nor the
buffer wraps (spec/42_frame_assembler.md R150). -/
theorem appendBit_toNat {b : Bool} {k : Nat} {s : State} (hk : k ≤ 28)
    (hlen : s.addrLen.toNat = min (k - 1) s.addressSize.toNat) (hbuf : s.addrBuf.toNat < 2 ^ s.addrLen.toNat)
    (hpos : 1 ≤ k) (hfits : k ≤ s.addressSize.toNat) :
    (appendBit b k s).addrLen.toNat = s.addrLen.toNat + 1 ∧
    (appendBit b k s).addrBuf.toNat = s.addrBuf.toNat * 2 + b.toNat := by
  have hpow : 2 ^ s.addrLen.toNat ≤ 2 ^ 27 := Nat.pow_le_pow_right (by decide) (by omega)
  have hb : b.toNat ≤ 1 := b.toNat_le
  have hone : (1 : BitVec 5).toNat = 1 := rfl
  simp only [appendBit_addrLen, appendBit_addrBuf, hfits, if_true, BitVec.toNat_add, BitVec.toNat_ofNat, hone]
  omega

/-- After data bit `k` the buffer holds `min k ADDRESS_SIZE` bits. -/
theorem appendBit_holds {b : Bool} {k : Nat} {s : State} (hk : k ≤ 28) (hpos : 1 ≤ k)
    (hlen : s.addrLen.toNat = min (k - 1) s.addressSize.toNat) (hbuf : s.addrBuf.toNat < 2 ^ s.addrLen.toNat) :
    (appendBit b k s).addrLen.toNat = min k s.addressSize.toNat ∧
    (appendBit b k s).addrBuf.toNat < 2 ^ (appendBit b k s).addrLen.toNat := by
  by_cases hfits : k ≤ s.addressSize.toNat
  · obtain ⟨hlen', hbuf'⟩ := appendBit_toNat (b := b) hk hlen hbuf hpos hfits
    have hb : b.toNat ≤ 1 := b.toNat_le
    rw [hlen', hbuf', Nat.pow_succ]
    omega
  · simp only [appendBit_addrLen, appendBit_addrBuf, hfits, if_false]
    exact ⟨by omega, hbuf⟩

/-- The advance of BIT_COUNT fits its register: to `k + 1`, or back to 0 when the frame completes. -/
theorem nextCount_toNat {k : Nat} (hk : k ≤ 28) :
    (if k + 1 = 29 then 0 else BitVec.ofNat 5 (k + 1) : BitVec 5).toNat = if k + 1 = 29 then 0 else k + 1 := by
  split
  · rfl
  · exact Nat.mod_eq_of_lt (by omega)

theorem dataBit_keeps_regs {b : Bool} {s : State} (hrun : s.runState = .run) (hframe : s.inFrame = true)
    (hzero : s.bitCount ≠ 0) (h : RegsConsistent s.toRegs) :
    RegsConsistent (dataBit b s.lastPos s.bitCount.toNat s).toRegs := by
  obtain ⟨hcount, hfault, ⟨-, hbuf⟩, -, hopen, -, hpos⟩ := h
  obtain ⟨hlen, hwindow⟩ := hopen ⟨hrun, hframe⟩
  obtain ⟨hseeded, hstart, haddr, hlast⟩ := hpos hframe
  have hk : 1 ≤ s.bitCount.toNat := Nat.one_le_iff_ne_zero.mpr fun h0 => hzero (BitVec.eq_of_toNat_eq h0)
  obtain ⟨hlen', hbuf'⟩ := appendBit_holds (b := b) hcount hk (by omega) hbuf
  have hnext := nextCount_toNat hcount
  rw [dataBit_toRegs]
  refine ⟨?count, hfault, ⟨?len, hbuf'⟩, fun _ => ?size, fun hopen' => ⟨?held, hwindow⟩, by simp [hseeded],
    fun _ => ⟨hseeded, hstart, BitVec.le_trans haddr hlast, BitVec.le_refl _⟩⟩
  case count => rw [hnext]; split <;> omega
  case len => dsimp only; omega
  case size => dsimp only; omega
  case held =>
    have hmore : s.bitCount.toNat + 1 ≠ 29 := fun hlast' => by simp [hlast'] at hopen'
    dsimp only
    rw [hnext, if_neg hmore]
    omega

/-! ### Pulses, commands and steps -/

theorem pulse_keeps_regs {p : Pulse} {s t : State} (hrun : s.runState = .run) (hseeded : s.seeded = true)
    (hlater : p.start < p.stop) (hend : p.stop = s.lastPos) 
    (heffect : PulseEffect p s t) (h : RegsConsistent s.toRegs) : RegsConsistent t.toRegs := by
  cases heffect with
  | ignored => exact h
  | began _ hwindow => exact beginFrame_keeps_regs hwindow hseeded hlater (BitVec.le_of_eq hend) h
  | abandoned => exact abandonFrame_keeps_regs h
  | marked hframe hcount => exact hend ▸ consumeMarker_keeps_regs hframe hcount h
  | tookBit b hframe hcount => exact hend ▸ dataBit_keeps_regs hrun hframe hcount h

theorem exec_keeps_regs {i : Instr} {s t : State} (heffect : ExecEffect s i t) (h : RegsConsistent s.toRegs) :
    RegsConsistent t.toRegs := by
  cases heffect with
  | dropped => exact h
  | faulted hcode => exact raiseFault_keeps_regs hcode h
  | rateSet hconfig => exact setSampleRate_keeps_regs hconfig h
  | sizeSet hconfig => exact setAddressSize_keeps_regs hconfig h
  | opened hconfig => exact openSession_keeps_regs hconfig h
  | closed hrun => exact closeSession_keeps_regs hrun h
  | seeded _ hfirst => exact seedEdge_keeps_regs hfirst h
  | @pulsed pos lvl _ hrun hseeded hlater hpulse =>
    have hlatched : RegsConsistent (latchEdge pos lvl s).toRegs := latchEdge_keeps_regs hlater h
    exact pulse_keeps_regs (s := latchEdge pos lvl s) hrun hseeded hlater rfl hpulse hlatched

/-- Settles O48: every outcome of a step keeps the invariants, operation by operation. -/
theorem stepKeepsRegisterInvariants : Obligations.StepKeepsRegisterInvariants := by
  intro s t h hstep
  cases step_effect hstep with
  | waited hregs => exact hregs ▸ h
  | reset hregs => exact hregs ▸ regsConsistent_reset
  | illegal => exact raiseFault_keeps_regs nofun h
  | ran _ heffect => exact exec_keeps_regs heffect h

end Sys2Proof.Machine
end

