-- ==== Sys2Proof/Proofs/SessionInvariants.lean ====
section
/-! The session and record invariants: what single rules add to spec/10_state.md R43. Kept together with R43, since the
order of a frame's boundaries rests on LAST_BIT_END being at most LAST_POS. -/

namespace Sys2Proof.Machine

theorem sessionConsistent_reset : SessionConsistent Regs.reset := by decide

/-! ### Operations outside a frame -/

theorem raiseFault_keeps_session {c : FaultCode} {w : CmdWord} {s : State} (hcode : c ≠ .none)
    (h : SessionConsistent s.toRegs) : SessionConsistent (raiseFault c w s).toRegs := by
  obtain ⟨-, -, -, hfields⟩ := h
  exact ⟨by simp [hcode], by simp, by simp, hfields⟩

theorem setSampleRate_keeps_session {rate : BitVec 32} {s : State} (hconfig : s.runState = .config)
    (h : SessionConsistent s.toRegs) : SessionConsistent (setSampleRate rate s).toRegs := by
  obtain ⟨hcmd, -, hhint, hfields⟩ := h
  exact ⟨hcmd, by simp [hconfig], hhint, hfields⟩

theorem openSession_keeps_session {s : State} (hrate : s.sampleRate ≠ 0) (h : SessionConsistent s.toRegs) :
    SessionConsistent (openSession s).toRegs := by
  obtain ⟨hcmd, -⟩ := h
  exact ⟨hcmd, fun _ => hrate, by simp, by simp⟩

theorem closeSession_keeps_session {s : State} (h : SessionConsistent s.toRegs) :
    SessionConsistent (closeSession s).toRegs := by
  obtain ⟨hcmd, -, -, hfields⟩ := h
  exact ⟨hcmd, by simp, by simp, hfields⟩

theorem seedEdge_keeps_session {pos : Pos} {lvl : Bool} {s : State} (h : SessionConsistent s.toRegs) :
    SessionConsistent (seedEdge pos lvl s).toRegs := by
  obtain ⟨hcmd, hrate, -, hfields⟩ := h
  exact ⟨hcmd, hrate, by simp, hfields⟩

theorem latchEdge_keeps_session {pos : Pos} {lvl : Bool} {s : State} (hseeded : s.seeded = true)
    (h : SessionConsistent s.toRegs) : SessionConsistent (latchEdge pos lvl s).toRegs := by
  obtain ⟨hcmd, hrate, -, hfields⟩ := h
  exact ⟨hcmd, hrate, by simp [hseeded], hfields⟩

/-! ### The boundaries of a frame -/

/-- In frame no boundary lies after the last edge. -/
theorem boundaries_le_lastPos {r : Regs} (hregs : RegsConsistent r) (hsession : SessionConsistent r)
    (hframe : r.inFrame = true) :
    r.addrStart ≤ r.lastPos ∧ r.lastBitEnd ≤ r.lastPos ∧ r.btnStart ≤ r.lastPos ∧ r.antiStart ≤ r.lastPos := by
  obtain ⟨-, -, -, -, -, -, hpos⟩ := hregs
  obtain ⟨-, -, -, hfields⟩ := hsession
  obtain ⟨-, -, haddr, hlast⟩ := hpos hframe
  obtain ⟨-, hbtn, -, hanti⟩ := hfields hframe
  exact ⟨BitVec.le_trans haddr hlast, hlast, BitVec.le_trans hbtn hlast, BitVec.le_trans hanti hlast⟩

/-- A boundary that either moves to the new end or stays keeps any upper bound both have. -/
theorem boundary_le {c : Prop} [Decidable c] {e old limit : Pos} (he : e ≤ limit) (hold : old ≤ limit) :
    (if c then e else old) ≤ limit := by
  split
  · exact he
  · exact hold

/-- A boundary that either moves to the new end or stays keeps any lower bound both have. -/
theorem le_boundary {c : Prop} [Decidable c] {e old limit : Pos} (he : limit ≤ e) (hold : limit ≤ old) :
    limit ≤ (if c then e else old) := by
  split
  · exact he
  · exact hold

/-- Every assembler transition leaves BTN_START and ANTI_START between ADDR_START and LAST_BIT_END
(spec/10_state.md R37, R38). -/
theorem pulse_keeps_boundaries {p : Pulse} {s t : State} (hend : p.stop = s.lastPos) (heffect : PulseEffect p s t)
    (hregs : RegsConsistent s.toRegs) (hsession : SessionConsistent s.toRegs) (hframe' : t.inFrame = true) :
    t.addrStart ≤ t.btnStart ∧ t.btnStart ≤ t.lastBitEnd ∧ t.addrStart ≤ t.antiStart ∧ t.antiStart ≤ t.lastBitEnd := by
  have hold := hsession
  obtain ⟨-, -, -, hfields⟩ := hold
  cases heffect with
  | ignored => exact hfields hframe'
  | began => simp
  | abandoned => simp at hframe'
  | marked hframe =>
    obtain ⟨haddrBtn, -, haddrAnti, -⟩ := hfields hframe
    obtain ⟨-, -, hbtn, hanti⟩ := boundaries_le_lastPos hregs hsession hframe
    exact hend ▸ ⟨haddrBtn, hbtn, haddrAnti, hanti⟩
  | tookBit b hframe =>
    obtain ⟨haddrBtn, -, haddrAnti, -⟩ := hfields hframe
    obtain ⟨haddr, -, hbtn, hanti⟩ := boundaries_le_lastPos hregs hsession hframe
    rw [hend, dataBit_toRegs]
    exact ⟨le_boundary haddr haddrBtn, boundary_le (BitVec.le_refl _) hbtn, le_boundary haddr haddrAnti,
      boundary_le (BitVec.le_refl _) hanti⟩

theorem pulse_keeps_session {p : Pulse} {s t : State} (hseeded : s.seeded = true) (hend : p.stop = s.lastPos)
    (heffect : PulseEffect p s t) (hregs : RegsConsistent s.toRegs) (h : SessionConsistent s.toRegs) :
    SessionConsistent t.toRegs := by
  obtain ⟨hrateEq, -, hrunEq, hcodeEq, hcmdEq, hseededEq, -⟩ := heffect.frame
  have hboundaries := pulse_keeps_boundaries hend heffect hregs h
  obtain ⟨hcmd, hrate, -, -⟩ := h
  exact ⟨by rwa [hcodeEq, hcmdEq], by rwa [hrunEq, hrateEq], by simp [hseededEq, hseeded], hboundaries⟩

theorem exec_keeps_session {i : Instr} {s t : State} (heffect : ExecEffect s i t) (hregs : RegsConsistent s.toRegs)
    (h : SessionConsistent s.toRegs) : SessionConsistent t.toRegs := by
  cases heffect with
  | dropped => exact h
  | faulted hcode => exact raiseFault_keeps_session hcode h
  | rateSet hconfig => exact setSampleRate_keeps_session hconfig h
  | sizeSet => exact h
  | opened _ hrate => exact openSession_keeps_session hrate h
  | closed => exact closeSession_keeps_session h
  | seeded => exact seedEdge_keeps_session h
  | @pulsed pos lvl _ _ hseeded hlater hpulse =>
    have hregs' : RegsConsistent (latchEdge pos lvl s).toRegs := latchEdge_keeps_regs hlater hregs
    have hsession' : SessionConsistent (latchEdge pos lvl s).toRegs := latchEdge_keeps_session hseeded h
    exact pulse_keeps_session (s := latchEdge pos lvl s) hseeded rfl hpulse hregs' hsession'

/-! ### The records of one command -/

theorem recordsOrdered_of_empty {s : State} (h : s.recOut = []) : RecordsOrdered s := by
  simp [RecordsOrdered, h]

theorem recordsOrdered_of_suffix {s t : State} (hsuffix : t.recOut <:+ s.recOut) (h : RecordsOrdered s) :
    RecordsOrdered t := by
  obtain ⟨hlen, hspan⟩ := h
  exact ⟨hsuffix.length_le.trans hlen, fun r hr => hspan r (hsuffix.subset hr)⟩

/-- A data bit emits at most three records: BTN comes with bit 24 and ANTI with bit 28, never both. -/
theorem dataBit_recOut_length {b : Bool} {e : Pos} {k : Nat} {s : State} (hempty : s.recOut = []) :
    (dataBit b e k s).recOut.length ≤ 3 := by
  have hone (c : Prop) [Decidable c] (r : Record) : (if c then [r] else []).length = if c then 1 else 0 := by
    split <;> rfl
  simp only [dataBit_recOut, hempty, List.length_append, List.length_cons, List.length_nil, hone]
  by_cases hbtn : k = 24
  · have hmore : k + 1 ≠ 29 := by omega
    rw [if_pos hbtn, if_neg hmore]
    split <;> omega
  · rw [if_neg hbtn]
    split <;> split <;> omega

/-- Every record of a data bit ends at the bit's end and starts at a boundary, none of which lies after it. -/
theorem dataBit_records_span {b : Bool} {e : Pos} {k : Nat} {s : State} (hempty : s.recOut = [])
    (haddr : s.addrStart ≤ e) (hlast : s.lastBitEnd ≤ e) (hbtn : s.btnStart ≤ e) (hanti : s.antiStart ≤ e) :
    ∀ r ∈ (dataBit b e k s).recOut, r.start ≤ r.stop := by
  intro r hr
  simp only [dataBit_recOut, hempty, List.nil_append, List.mem_append, List.mem_singleton,
    List.mem_ite_nil_right] at hr
  rcases hr with ((rfl | ⟨-, rfl⟩) | ⟨-, rfl⟩) | ⟨-, rfl⟩
  · exact hlast
  · exact haddr
  · exact boundary_le (BitVec.le_refl _) hbtn
  · exact boundary_le (BitVec.le_refl _) hanti

theorem pulse_records {p : Pulse} {s t : State} (hlater : p.start < p.stop) (hend : p.stop = s.lastPos)
    (heffect : PulseEffect p s t) (hempty : s.recOut = []) (hregs : RegsConsistent s.toRegs)
    (hsession : SessionConsistent s.toRegs) : RecordsOrdered t := by
  cases heffect with
  | ignored => exact recordsOrdered_of_empty hempty
  | began => simp [RecordsOrdered, hempty, BitVec.le_of_lt hlater]
  | abandoned => exact recordsOrdered_of_empty hempty
  | marked => exact recordsOrdered_of_empty hempty
  | tookBit b hframe =>
    obtain ⟨haddr, hlast, hbtn, hanti⟩ := boundaries_le_lastPos hregs hsession hframe
    exact hend ▸ ⟨dataBit_recOut_length hempty, dataBit_records_span hempty haddr hlast hbtn hanti⟩

theorem exec_records {i : Instr} {s t : State} (heffect : ExecEffect s i t) (hempty : s.recOut = [])
    (hregs : RegsConsistent s.toRegs) (hsession : SessionConsistent s.toRegs) : RecordsOrdered t := by
  cases heffect with
  | dropped => exact recordsOrdered_of_empty hempty
  | faulted => exact recordsOrdered_of_empty hempty
  | rateSet => exact recordsOrdered_of_empty hempty
  | sizeSet => exact recordsOrdered_of_empty hempty
  | opened => exact recordsOrdered_of_empty hempty
  | closed => exact recordsOrdered_of_empty hempty
  | seeded => exact recordsOrdered_of_empty hempty
  | @pulsed pos lvl _ _ hseeded hlater hpulse =>
    have hregs' : RegsConsistent (latchEdge pos lvl s).toRegs := latchEdge_keeps_regs hlater hregs
    have hsession' : SessionConsistent (latchEdge pos lvl s).toRegs := latchEdge_keeps_session hseeded hsession
    exact pulse_records (s := latchEdge pos lvl s) hlater rfl hpulse hempty hregs' hsession'

/-! ### Steps and reset -/

/-- Settles O49: a turn that runs no command moves records only out of the channel, and a command starts with the
channel empty, so the record invariants speak of one command's records. -/
theorem stepKeepsSessionAndRecordInvariants : Obligations.StepKeepsSessionAndRecordInvariants := by
  intro s t h hstep
  obtain ⟨hregs, hsession, hrecords⟩ := h
  cases step_effect hstep with
  | waited hsame hsuffix => exact ⟨hsame ▸ hsession, recordsOrdered_of_suffix hsuffix hrecords⟩
  | reset hsame hempty => exact ⟨hsame ▸ sessionConsistent_reset, recordsOrdered_of_empty hempty⟩
  | illegal hempty => exact ⟨raiseFault_keeps_session nofun hsession, recordsOrdered_of_empty hempty⟩
  | ran hempty heffect =>
    exact ⟨exec_keeps_session heffect hregs hsession, exec_records heffect hempty hregs hsession⟩

/-- Settles O47: each of the three groups at the reset values. -/
theorem invariantsHoldAtReset : Obligations.InvariantsHoldAtReset :=
  ⟨regsConsistent_reset, sessionConsistent_reset, recordsOrdered_of_empty rfl⟩

end Sys2Proof.Machine
end

