-- ==== Sys2Proof/Proofs/Registers.lean ====
section
/-! Which commands write which registers (spec/10_state.md R20), the status port's map (R41) and the fault output. -/

namespace Sys2Proof.Machine

/-! ### Writers of the registers -/

/-- Settles O44: for each outcome of a command, the registers it writes are those of its row. -/
theorem registersWrittenOnlyByTheirCommands : Obligations.RegistersWrittenOnlyByTheirCommands := by
  intro i s t h
  cases exec_effect h with
  | dropped => simp
  | faulted _ hrun => simp [hrun]
  | rateSet => simp
  | sizeSet => simp
  | opened hconfig => simp [hconfig]
  | closed hrun => simp [hrun]
  | seeded => simp
  | pulsed _ _ _ hpulse =>
    obtain ⟨hrate, hsize, hrun, hcode, hcmd, -, -, -, hcmdIn, hturns, htaken⟩ := hpulse.frame
    simp [hrate, hsize, hrun, hcode, hcmd, hcmdIn, hturns, htaken]

/-- Of a command's outcomes only the sync of an EDGE sets IN_FRAME (spec/10_state.md R29). -/
theorem exec_sets_inFrame {i : Instr} {s t : State} (heffect : ExecEffect s i t) (hidle : s.inFrame = false)
    (hframe : t.inFrame = true) : s.runState = .run ∧
    ∃ (pos : Pos) (lvl : Bool) (p : Pulse), syncWindow s.sampleRate p.width = true ∧
      t = beginFrame p (latchEdge pos lvl s) := by
  cases heffect with
  | dropped => simp [hidle] at hframe
  | faulted => simp [hidle] at hframe
  | rateSet => simp [hidle] at hframe
  | sizeSet => simp [hidle] at hframe
  | opened => simp at hframe
  | closed => simp [hidle] at hframe
  | seeded => simp [hidle] at hframe
  | @pulsed pos lvl _ hrun _ _ hpulse =>
    refine ⟨hrun, pos, lvl, pulseOf pos lvl s.toRegs, ?_⟩
    cases hpulse with
    | ignored => simp [hidle] at hframe
    | began _ hwindow => exact ⟨hwindow, rfl⟩
    | abandoned hopen => simp [hidle] at hopen
    | marked hopen => simp [hidle] at hopen
    | tookBit _ hopen => simp [hidle] at hopen

/-- Settles O45: a step that sets IN_FRAME ran a command, and that command began a frame. -/
theorem onlySyncSetsInFrame : Obligations.OnlySyncSetsInFrame := by
  intro s t h hidle hframe
  cases step_effect h with
  | waited hregs => simp [hregs, hidle] at hframe
  | reset hregs => simp [hregs, Regs.reset] at hframe
  | illegal => simp [hidle] at hframe
  | ran hempty heffect =>
    obtain ⟨hrun, pos, lvl, p, hwindow, rfl⟩ := exec_sets_inFrame heffect hidle hframe
    obtain ⟨hnarrow, hwide⟩ := (syncWindow_iff _ _).mp hwindow
    exact ⟨hrun, hempty, by simp [hempty], rfl, rfl, rfl, hnarrow, hwide⟩

/-! ### The status port -/

/-- Bits [1:0] of status word 0x00, the field appended last. -/
theorem stateWord_runState (r : Regs) : (stateWord r).extractLsb' 0 2 = r.runState.code := by
  unfold stateWord
  rw [BitVec.extractLsb'_append_eq_of_add_le (by decide)]
  exact BitVec.extractLsb'_eq_self

theorem stateWord_flags (r : Regs) : (stateWord r).getLsbD 2 = r.seeded ∧ (stateWord r).getLsbD 3 = r.lastLvl ∧
    (stateWord r).getLsbD 4 = r.inFrame := by
  unfold stateWord
  simp only [BitVec.getLsbD_append]
  simp

/-- Bits [9:5]: four fields lie below. -/
theorem stateWord_bitCount (r : Regs) : (stateWord r).extractLsb' 5 5 = r.bitCount := by
  unfold stateWord
  iterate 4 rw [BitVec.extractLsb'_append_eq_of_le (by decide)]
  rw [BitVec.extractLsb'_append_eq_of_add_le (by decide)]
  exact BitVec.extractLsb'_eq_self

/-- Bits [15:10], which the table calls zero. -/
theorem stateWord_gap (r : Regs) : (stateWord r).extractLsb' 10 6 = 0 := by
  unfold stateWord
  iterate 5 rw [BitVec.extractLsb'_append_eq_of_le (by decide)]
  rw [BitVec.extractLsb'_append_eq_of_add_le (by decide)]
  exact BitVec.extractLsb'_eq_self

/-- Bits [18:16]: six fields lie below. -/
theorem stateWord_faultCode (r : Regs) : (stateWord r).extractLsb' 16 3 = r.faultCode.code := by
  unfold stateWord
  iterate 6 rw [BitVec.extractLsb'_append_eq_of_le (by decide)]
  rw [BitVec.extractLsb'_append_eq_of_add_le (by decide)]
  exact BitVec.extractLsb'_eq_self

/-- Bits [63:19], which the table calls zero. -/
theorem stateWord_high (r : Regs) : (stateWord r).extractLsb' 19 45 = 0 := by
  unfold stateWord
  iterate 7 rw [BitVec.extractLsb'_append_eq_of_le (by decide)]
  exact BitVec.extractLsb'_eq_self

theorem addressPayload_buf (len : BitVec 5) (buf : BitVec 28) : (addressPayload len buf).extractLsb' 0 28 = buf := by
  unfold addressPayload
  rw [BitVec.extractLsb'_append_eq_of_add_le (by decide)]
  exact BitVec.extractLsb'_eq_self

theorem addressPayload_len (len : BitVec 5) (buf : BitVec 28) : (addressPayload len buf).extractLsb' 28 5 = len := by
  unfold addressPayload
  rw [BitVec.extractLsb'_append_eq_of_le (by decide), BitVec.extractLsb'_append_eq_of_add_le (by decide)]
  exact BitVec.extractLsb'_eq_self

theorem addressPayload_high (len : BitVec 5) (buf : BitVec 28) : (addressPayload len buf).extractLsb' 33 31 = 0 := by
  unfold addressPayload
  iterate 2 rw [BitVec.extractLsb'_append_eq_of_le (by decide)]
  exact BitVec.extractLsb'_eq_self

theorem statusWord_reserved (r : Regs) {i : BitVec 5} (h : 0x0D ≤ i.toNat) : statusWord r i = 0 := by
  unfold statusWord
  split
  case h_14 => rfl
  all_goals omega

/-- Settles O10: the codes by evaluation, the fields of words 0x00 and 0x05 by their position in the word, every other
index by its row. -/
theorem statusPortMap : Obligations.StatusPortMap := by
  refine ⟨rfl, rfl, fun r => ?_⟩
  obtain ⟨hseeded, hlvl, hframe⟩ := stateWord_flags r
  exact ⟨stateWord_runState r, hseeded, hlvl, hframe, stateWord_bitCount r, stateWord_gap r, stateWord_faultCode r,
    stateWord_high r, BitVec.toNat_setWidth_of_le (by decide), BitVec.toNat_setWidth_of_le (by decide), rfl, rfl,
    addressPayload_buf _ _, addressPayload_len _ _, addressPayload_high _ _, rfl, rfl, rfl, rfl, rfl, rfl,
    BitVec.toNat_setWidth_of_le (by decide), fun _ => statusWord_reserved r⟩

/-! ### The fault output -/

theorem runState_code_eq_two_iff (m : RunState) : m.code = 2 ↔ m = .fault := by
  cases m <;> decide

/-- Settles O11: the output compares RUN_STATE with FAULT, the one value whose code is 2. -/
theorem faultOutputLevel : Obligations.FaultOutputLevel := by
  intro r
  have hlevel : faultOutput r = true ↔ r.runState = .fault := beq_iff_eq
  exact ⟨hlevel, hlevel.trans (runState_code_eq_two_iff r.runState).symm⟩

end Sys2Proof.Machine
end

