-- ==== Sys2Proof/Proofs/ByteOrder.lean ====
section
/-! The byte order of a byte transport (spec/20_memory.md R66), for every length and number, then for commands and
records. -/

namespace Sys2Proof

/-- Byte `i` of a number's little-endian bytes is its digit `i` in base 256. -/
theorem leBytes_getElem? {n i : Nat} (hi : i < n) (v : Nat) :
    (leBytes n v)[i]? = some (BitVec.ofNat 8 (v / 256 ^ i)) := by
  induction n generalizing i v with
  | zero => omega
  | succ n ih =>
    cases i with
    | zero => simp [leBytes]
    | succ i =>
      rw [leBytes, List.getElem?_cons_succ, ih (by omega), Nat.div_div_eq_div_mul, ← Nat.pow_succ']

/-- Bits 8i+7 to 8i of a word are its digit `i` in base 256. -/
theorem extractLsb'_byte {m : Nat} (w : BitVec m) (i : Nat) :
    w.extractLsb' (8 * i) 8 = BitVec.ofNat 8 (w.toNat / 256 ^ i) := by
  rw [BitVec.extractLsb', Nat.shiftRight_eq_div_pow, Nat.pow_mul]

/-- Byte `i` of a word's bytes is the word's bits 8i+7 to 8i. -/
theorem leBytes_toNat_getElem? {m n i : Nat} (w : BitVec m) (hi : i < n) :
    (leBytes n w.toNat)[i]? = some (w.extractLsb' (8 * i) 8) := by
  rw [leBytes_getElem? hi, extractLsb'_byte]

/-- Nine bytes carry a whole command word. -/
theorem decodeBytes_cmdBytes (w : CmdWord) : decodeBytes (cmdBytes w) = decode w := by
  have hlength : (cmdBytes w).length = 9 := leBytes_length 9 w.toNat
  have hvalue : leValue (cmdBytes w) = w.toNat := (leValue_leBytes 9 w.toNat).trans (Nat.mod_eq_of_lt w.isLt)
  rw [decodeBytes, if_pos hlength, hvalue, BitVec.ofNat_toNat, BitVec.setWidth_eq]

/-- Settles O6: a command is the case of 9 bytes, a record the case of 25. -/
theorem byteTransport : Obligations.ByteTransport :=
  ⟨fun w => ⟨leBytes_length 9 _, fun _ hi => leBytes_toNat_getElem? w hi, decodeBytes_cmdBytes w⟩,
   fun r => ⟨leBytes_length 25 _, fun _ hi => leBytes_toNat_getElem? r.word hi⟩⟩

end Sys2Proof
end

