-- ==== Sys2Proof/Proofs/EncodedWords.lean ====
section
/-! An encoded command read back by its fields (spec/30_encoding.md R82, R83), and by its number. -/

namespace Sys2Proof

/-- An operand written into the low bits of D is read back whole. -/
theorem extractLsb'_setWidth_operand {n m : Nat} (v : BitVec n) (h : n ≤ m) :
    (v.setWidth m).extractLsb' 0 n = v := by
  ext i hi
  simp [hi, show i < m by omega]

/-- Above an operand written into the low bits of D every bit is zero. -/
theorem extractLsb'_setWidth_above {n m : Nat} (v : BitVec n) (len : Nat) :
    (v.setWidth m).extractLsb' n len = 0 := by
  ext i hi
  simp

/-- The must-be-zero bits of every encoded command are zero and its operands come back. -/
theorem decode_encode (i : Instr) : decode (encode i) = .ok i := by
  cases i with
  | setrate rate =>
    simp [encode, decode, orMustBeZero, extractLsb'_assembleWord, extractLsb'_setWidth_operand rate,
      extractLsb'_setWidth_above rate]
  | setasize size =>
    simp [encode, decode, orMustBeZero, extractLsb'_assembleWord, extractLsb'_setWidth_operand size,
      extractLsb'_setWidth_above size]
  | start => decide
  | edge pos lvl => simp [encode, decode]
  | eos => decide

/-- All 72 bits of a number that is a command word are kept. -/
theorem tableWord_toNat (w : CmdWord) : tableWord 72 w.toNat = w := by
  rw [tableWord, Nat.mod_eq_of_lt w.isLt, BitVec.ofNat_toNat, BitVec.setWidth_eq]

end Sys2Proof
end

