-- ==== Sys2Proof/Proofs/Channels.lean ====
section
/-! The two channels and whose turn it is (spec/20_memory.md R61, R62): what one step does on each turn, then runs over
any number of turns. -/

namespace Sys2Proof.Machine

/-! ### One step, turn by turn -/

theorem step_of_no_turn {s : State} (ht : s.turns = []) : step s = .next s := by
  simp [step, nextCommand, ht]

/-- An accepted legal word runs at once. -/
theorem step_of_offered_ok {s : State} {w : CmdWord} {ws : List CmdWord} {ts : List Turn} {i : Instr}
    (h : Offered s w ws ts) (hi : decode w = .ok i) : step s = exec i { s with turns := ts, cmdIn := ws } := by
  obtain ⟨hturn, hempty, hword⟩ := h
  simp only [step, nextCommand_of_offered hturn hempty hword, hi]

/-- An accepted word that is no command is ILLEGAL_COMMAND (spec/60_exceptions.md R244), or nothing in FAULT. -/
theorem step_of_offered_error {s : State} {w : CmdWord} {ws : List CmdWord} {ts : List Turn} {e : DecodeReject}
    (h : Offered s w ws ts) (he : decode w = .error e) :
    step s = .next (illegalCommand w { s with turns := ts, cmdIn := ws }) := by
  obtain ⟨hturn, hempty, hword⟩ := h
  simp only [step, nextCommand_of_offered hturn hempty hword, he]

/-- An untaken record makes the host's turn pass with nothing accepted (spec/70_reset_and_hazards.md R276). -/
theorem step_of_blocked {s : State} {ts : List Turn} (ht : s.turns = .host :: ts) (hr : s.recOut ≠ []) :
    step s = .next { s with turns := ts } := by
  rcases offerCommand_cases { s with turns := ts } with ⟨w, ws, hempty, -⟩ | ⟨-, hoffer⟩
  · exact absurd hempty hr
  · simp [step, nextCommand, ht, hoffer]

/-- The oldest record goes to the consumer (spec/20_memory.md R62). -/
theorem step_of_taken {s : State} {r : Record} {rs : List Record} {ts : List Turn} (ht : s.turns = .consumer :: ts)
    (hr : s.recOut = r :: rs) : step s = .next { s with turns := ts, recOut := rs, taken := s.taken ++ [r] } := by
  simp [step, nextCommand, ht, takeRecord, hr]

/-- Settles O36: the word is accepted, and its decoding selects the branch. -/
theorem stepRunsTheDecodedCommand : Obligations.StepRunsTheDecodedCommand :=
  fun _ _ _ _ hoffered => ⟨fun _ hi => step_of_offered_ok hoffered hi, fun _ he => step_of_offered_error hoffered he⟩

/-- Settles O37: the placed word is offered, and it decodes to the command it encodes. -/
theorem placedWordRunsNext : Obligations.PlacedWordRunsNext := by
  intro i s
  rw [State.withFetchWord, tableWord_toNat]
  have hoffered : Offered (presentNext (encode i) s) (encode i) s.cmdIn s.turns := ⟨rfl, rfl, rfl⟩
  exact ⟨step_of_offered_ok hoffered (decode_encode i), rfl⟩

/-- Settles O38: a turn that accepts no word answers its own state, a command always answers one, and an illegal word
is fault entry. -/
theorem stepNeverStops : Obligations.StepNeverStops := by
  intro s
  unfold step
  split
  · exact ⟨_, rfl⟩
  · split
    · exact exec_next _ _
    · exact ⟨_, rfl⟩

/-- Settles O40: the rule of the consumer's turn. -/
theorem consumerTakesOldestRecord : Obligations.ConsumerTakesOldestRecord :=
  fun _ _ _ _ => step_of_taken

/-! ### Runs -/

/-- A run goes on from the state its first step answers. -/
theorem run_succ_of_step {n : Nat} {s t : State} (h : step s = .next t) :
    Host.Core.run core (n + 1) s = Host.Core.run core n t := by
  rw [run_succ, h]

theorem run_one (s : State) : Host.Core.run core 1 s = step s := by
  rw [run_succ]
  cases step s <;> rfl

/-- On a turn of the host, or with no turn left, a state with an untaken record loses at most that turn. -/
theorem step_of_untaken {s : State} (hr : s.recOut ≠ []) (hhost : ∀ turn ∈ s.turns, turn = .host) :
    step s = .next { s with turns := s.turns.tail } := by
  cases ht : s.turns with
  | nil =>
    rw [step_of_no_turn ht, List.tail_nil, ← ht]
  | cons turn ts =>
    obtain rfl : turn = .host := hhost turn (by simp [ht])
    exact step_of_blocked ht hr

/-- A stalled run uses up the host's turns and does nothing else. -/
theorem run_of_untaken (n : Nat) {s : State} (hr : s.recOut ≠ []) (hhost : ∀ turn ∈ s.turns, turn = .host) :
    Host.Core.run core n s = .next { s with turns := s.turns.drop n } := by
  induction n generalizing s with
  | zero => rfl
  | succ n ih =>
    have hrest : ∀ turn ∈ s.turns.tail, turn = .host := fun turn hmem => hhost turn (List.mem_of_mem_tail hmem)
    rw [run_succ_of_step (step_of_untaken hr hhost), ih (s := { s with turns := s.turns.tail }) hr hrest]
    simp [List.drop_tail]

/-- Settles O41: a stalled run changes the turns alone. -/
theorem untakenRecordStallsForever : Obligations.UntakenRecordStallsForever :=
  fun n _ hr hhost => ⟨_, run_of_untaken n hr hhost, rfl, rfl, rfl, rfl⟩

/-- One turn of the consumer for each untaken record empties the channel in emission order; the run goes on from
there. -/
theorem run_drain (m : Nat) {s : State} {ts : List Turn}
    (ht : s.turns = List.replicate s.recOut.length .consumer ++ ts) :
    Host.Core.run core (s.recOut.length + m) s =
      Host.Core.run core m { s with turns := ts, recOut := [], taken := s.taken ++ s.recOut } := by
  induction hrecords : s.recOut generalizing s with
  | nil =>
    simp only [hrecords, List.length_nil, List.replicate_zero, List.nil_append] at ht
    rw [List.length_nil, Nat.zero_add, List.append_nil, ← ht, ← hrecords]
  | cons r rs ih =>
    have hturns : s.turns = .consumer :: (List.replicate rs.length .consumer ++ ts) := by
      rw [ht, hrecords, List.length_cons, List.replicate_succ, List.cons_append]
    rw [List.length_cons, Nat.succ_add, run_succ_of_step (step_of_taken hturns hrecords),
      ih (s := { s with turns := _, recOut := rs, taken := s.taken ++ [r] }) rfl rfl, List.append_assoc]
    rfl

/-- Settles O42: once drained, the channel offers the presented word. -/
theorem drainedChannelAcceptsNext : Obligations.DrainedChannelAcceptsNext := by
  intro s w ws ts i ht hw hi
  rw [run_drain 1 ht, run_one]
  exact step_of_offered_ok ⟨rfl, rfl, hw⟩ hi

end Sys2Proof.Machine
end

