-- ==== Sys2Proof/Proofs/LegalWords.lean ====
section
/-! Which words are commands (spec/30_encoding.md R82, R83): the decoder read backwards, and the two spellings of
legality, by fields and by match and mask. -/

namespace Sys2Proof

open Sys2Proof.Machine

/-! ### Fields of a word -/

/-- A field of D is the same bits of the word. -/
theorem extractLsb'_wordData (w : CmdWord) {lo len : Nat} (h : lo + len ≤ 64) :
    (wordData w).extractLsb' lo len = w.extractLsb' lo len :=
  BitVec.extractLsb'_extractLsb'_of_le h

/-- The part of a number from bit `lo` up is zero when each of its bits is. -/
theorem extractLsb'_high_eq_zero_iff {m : Nat} (v : BitVec m) (lo : Nat) :
    v.extractLsb' lo (m - lo) = 0 ↔ ∀ i, lo ≤ i → i < m → v.getLsbD i = false := by
  constructor
  · intro h i hlo hi
    have hbit : (v.extractLsb' lo (m - lo)).getLsbD (i - lo) = false := by rw [h]; exact BitVec.getLsbD_zero
    simpa [show i - lo < m - lo by omega, Nat.add_sub_of_le hlo] using hbit
  · intro h
    ext i hi
    simpa using h (lo + i) (by omega) (by omega)

/-- A number with no bit from bit `n` up is its low `n` bits widened. -/
theorem setWidth_extractLsb'_of_high_zero {m : Nat} {v : BitVec m} {n : Nat} (h : v.extractLsb' n (m - n) = 0) :
    (v.extractLsb' 0 n).setWidth m = v := by
  rw [extractLsb'_high_eq_zero_iff] at h
  ext i hi
  by_cases hlow : i < n
  · simp [hlow, BitVec.getLsbD_eq_getElem hi]
  · simpa [hlow, BitVec.getLsbD_eq_getElem hi] using h i (by omega) hi

/-- A mask from bit `lo` up leaves nothing exactly when those bits are zero. -/
theorem and_allOnes_shiftLeft_eq_zero_iff {m : Nat} (v : BitVec m) (lo : Nat) :
    v &&& BitVec.allOnes m <<< lo = 0 ↔ v.extractLsb' lo (m - lo) = 0 := by
  rw [extractLsb'_high_eq_zero_iff]
  constructor
  · intro h i hlo hi
    have hbit : (v &&& BitVec.allOnes m <<< lo).getLsbD i = false := by rw [h]; exact BitVec.getLsbD_zero
    simpa [hi, show ¬ i < lo by omega, show i - lo < m by omega] using hbit
  · intro h
    ext i hi
    by_cases hlow : i < lo
    · simp [hlow]
    · simp [← BitVec.getLsbD_eq_getElem, h i (by omega) hi]

/-- Two words are equal when their four fields are. -/
theorem word_eq_iff_fields {w v : CmdWord} : w = v ↔
    wordOp w = wordOp v ∧ wordRsv w = wordRsv v ∧ wordLvl w = wordLvl v ∧ wordData w = wordData v := by
  constructor
  · rintro rfl
    exact ⟨rfl, rfl, rfl, rfl⟩
  · rintro ⟨hop, hrsv, hlvl, hdata⟩
    rw [word_eq_fields w, word_eq_fields v, hop, hrsv, hlvl, hdata]

@[simp] theorem wordOp_and (w m : CmdWord) : wordOp (w &&& m) = wordOp w &&& wordOp m := BitVec.extractLsb'_and
@[simp] theorem wordRsv_and (w m : CmdWord) : wordRsv (w &&& m) = wordRsv w &&& wordRsv m := BitVec.extractLsb'_and
@[simp] theorem wordLvl_and (w m : CmdWord) : wordLvl (w &&& m) = (wordLvl w && wordLvl m) := BitVec.getLsbD_and
@[simp] theorem wordData_and (w m : CmdWord) : wordData (w &&& m) = wordData w &&& wordData m :=
  BitVec.extractLsb'_and

/-! ### Decoding, read backwards -/

/-- The command that OP and the must-be-zero bits of its row make of a word (spec/30_encoding.md R82). -/
inductive ReadsAs (w : CmdWord) : Instr → Prop
  | setrate (hop : wordOp w = 1) (hlvl : wordLvl w = false) (hzero : w.extractLsb' 32 32 = 0) :
      ReadsAs w (.setrate (w.extractLsb' 0 32))
  | setasize (hop : wordOp w = 2) (hlvl : wordLvl w = false) (hzero : w.extractLsb' 8 56 = 0) :
      ReadsAs w (.setasize (w.extractLsb' 0 8))
  | start (hop : wordOp w = 3) (hlvl : wordLvl w = false) (hzero : wordData w = 0) : ReadsAs w .start
  | edge (hop : wordOp w = 4) : ReadsAs w (.edge (wordData w) (wordLvl w))
  | eos (hop : wordOp w = 5) (hlvl : wordLvl w = false) (hzero : wordData w = 0) : ReadsAs w .eos

/-- The must-be-zero check on L and a part of D passes when both are zero. -/
theorem orMustBeZero_eq_ok_iff {lvl : Bool} {n : Nat} {d : BitVec n} {i j : Instr} :
    orMustBeZero (!lvl && d == 0) i = .ok j ↔ lvl = false ∧ d = 0 ∧ i = j := by
  by_cases h : (!lvl && d == 0) = true
  · rw [orMustBeZero, if_pos h]
    simp_all
  · rw [orMustBeZero, if_neg h]
    simp_all

theorem readsAs_of_decode {w : CmdWord} {i : Instr} (h : decode w = .ok i) : wordRsv w = 0 ∧ ReadsAs w i := by
  unfold decode at h
  split at h
  case isTrue => cases h
  case isFalse hrsv =>
  refine ⟨not_not.mp hrsv, ?_⟩
  split at h
  case isTrue hop =>
    obtain ⟨hlvl, hzero, rfl⟩ := orMustBeZero_eq_ok_iff.mp h
    exact .setrate hop hlvl hzero
  split at h
  case isTrue hop =>
    obtain ⟨hlvl, hzero, rfl⟩ := orMustBeZero_eq_ok_iff.mp h
    exact .setasize hop hlvl hzero
  split at h
  case isTrue hop =>
    obtain ⟨hlvl, hzero, rfl⟩ := orMustBeZero_eq_ok_iff.mp h
    exact .start hop hlvl hzero
  split at h
  case isTrue hop =>
    cases h
    exact .edge hop
  split at h
  case isTrue hop =>
    obtain ⟨hlvl, hzero, rfl⟩ := orMustBeZero_eq_ok_iff.mp h
    exact .eos hop hlvl hzero
  case isFalse => cases h

/-- A command and the bits that its row demands are the whole word. -/
theorem encode_of_readsAs {w : CmdWord} {i : Instr} (hrsv : wordRsv w = 0) (h : ReadsAs w i) : encode i = w := by
  have hfields := assembleWord_fields hrsv
  cases h with
  | setrate hop hlvl hzero =>
    rw [← extractLsb'_wordData w (by decide)] at hzero
    rw [encode, ← extractLsb'_wordData w (by decide), setWidth_extractLsb'_of_high_zero hzero]
    rwa [hop, hlvl] at hfields
  | setasize hop hlvl hzero =>
    rw [← extractLsb'_wordData w (by decide)] at hzero
    rw [encode, ← extractLsb'_wordData w (by decide), setWidth_extractLsb'_of_high_zero hzero]
    rwa [hop, hlvl] at hfields
  | start hop hlvl hzero => rwa [hop, hlvl, hzero] at hfields
  | edge hop => rwa [hop] at hfields
  | eos hop hlvl hzero => rwa [hop, hlvl, hzero] at hfields

/-- A word decodes to a command exactly when it is that command's encoding. -/
theorem decode_eq_ok_iff {w : CmdWord} {i : Instr} : decode w = .ok i ↔ encode i = w := by
  constructor
  · intro h
    obtain ⟨hrsv, hreads⟩ := readsAs_of_decode h
    exact encode_of_readsAs hrsv hreads
  · rintro rfl
    exact decode_encode i

/-! ### Legality, by fields and by rows -/

/-- `legal(w)` of spec/30_encoding.md R83 as conditions on the fields of the word. -/
def FieldsLegal (w : CmdWord) : Prop :=
  wordRsv w = 0 ∧
  ((wordOp w = 1 ∧ wordLvl w = false ∧ w.extractLsb' 32 32 = 0) ∨
   (wordOp w = 2 ∧ wordLvl w = false ∧ w.extractLsb' 8 56 = 0) ∨
   (wordOp w = 3 ∧ wordLvl w = false ∧ wordData w = 0) ∨
   wordOp w = 4 ∨
   (wordOp w = 5 ∧ wordLvl w = false ∧ wordData w = 0))

theorem exists_readsAs_iff (w : CmdWord) : (wordRsv w = 0 ∧ ∃ i, ReadsAs w i) ↔ FieldsLegal w := by
  refine and_congr_right fun _ => ⟨?_, ?_⟩
  · rintro ⟨i, hreads⟩
    cases hreads with
    | setrate hop hlvl hzero => exact .inl ⟨hop, hlvl, hzero⟩
    | setasize hop hlvl hzero => exact .inr (.inl ⟨hop, hlvl, hzero⟩)
    | start hop hlvl hzero => exact .inr (.inr (.inl ⟨hop, hlvl, hzero⟩))
    | edge hop => exact .inr (.inr (.inr (.inl hop)))
    | eos hop hlvl hzero => exact .inr (.inr (.inr (.inr ⟨hop, hlvl, hzero⟩)))
  · rintro (⟨hop, hlvl, hzero⟩ | ⟨hop, hlvl, hzero⟩ | ⟨hop, hlvl, hzero⟩ | hop | ⟨hop, hlvl, hzero⟩)
    · exact ⟨_, .setrate hop hlvl hzero⟩
    · exact ⟨_, .setasize hop hlvl hzero⟩
    · exact ⟨_, .start hop hlvl hzero⟩
    · exact ⟨_, .edge hop⟩
    · exact ⟨_, .eos hop hlvl hzero⟩

/-- The words that decode are those whose fields are legal. -/
theorem decodes_iff_fieldsLegal (w : CmdWord) : (∃ i, decode w = .ok i) ↔ FieldsLegal w := by
  rw [← exists_readsAs_iff]
  constructor
  · rintro ⟨i, h⟩
    obtain ⟨hrsv, hreads⟩ := readsAs_of_decode h
    exact ⟨hrsv, i, hreads⟩
  · rintro ⟨hrsv, i, hreads⟩
    exact ⟨i, decode_eq_ok_iff.mpr (encode_of_readsAs hrsv hreads)⟩

theorem legal_iff_exists_row (w : CmdWord) : legal w = true ↔ ∃ r ∈ encodingTable, w &&& r.mask = r.value := by
  simp [legal, EncodingRow.covers]

/-- What the mask and value of a row ask of a word: this OP, RSV zero, L zero if `zeroLvl`, and D zero from bit `lo`
up. -/
structure EncodingRow.Demands (r : EncodingRow) (op : BitVec 4) (zeroLvl : Bool) (lo : Nat) : Prop where
  maskOp : wordOp r.mask = BitVec.allOnes 4
  maskRsv : wordRsv r.mask = BitVec.allOnes 3
  maskLvl : wordLvl r.mask = zeroLvl
  maskData : wordData r.mask = BitVec.allOnes 64 <<< lo
  value : r.value = assembleWord op false 0

/-- A row covers the words whose fields meet its demands. -/
theorem EncodingRow.Demands.and_mask_eq_iff {r : EncodingRow} {op : BitVec 4} {zeroLvl : Bool} {lo len : Nat}
    (h : r.Demands op zeroLvl lo) (hlen : lo + len = 64) (w : CmdWord) :
    w &&& r.mask = r.value ↔
      wordRsv w = 0 ∧ wordOp w = op ∧ (wordLvl w && zeroLvl) = false ∧ w.extractLsb' lo len = 0 := by
  obtain rfl : len = 64 - lo := by omega
  rw [word_eq_iff_fields, h.value, wordOp_and, wordRsv_and, wordLvl_and, wordData_and, h.maskOp, h.maskRsv, h.maskLvl,
    h.maskData, BitVec.and_allOnes, BitVec.and_allOnes, wordOp_assembleWord, wordRsv_assembleWord,
    wordLvl_assembleWord, wordData_assembleWord, and_allOnes_shiftLeft_eq_zero_iff,
    extractLsb'_wordData w (by omega), and_left_comm]

theorem demands_setrate :
    EncodingRow.Demands ⟨0xFFFFFFFFFF00000000#72, 0x100000000000000000#72⟩ 1 true 32 := by
  constructor <;> decide

theorem demands_setasize :
    EncodingRow.Demands ⟨0xFFFFFFFFFFFFFFFF00#72, 0x200000000000000000#72⟩ 2 true 8 := by
  constructor <;> decide

theorem demands_start :
    EncodingRow.Demands ⟨0xFFFFFFFFFFFFFFFFFF#72, 0x300000000000000000#72⟩ 3 true 0 := by
  constructor <;> decide

theorem demands_edge :
    EncodingRow.Demands ⟨0xFE0000000000000000#72, 0x400000000000000000#72⟩ 4 false 64 := by
  constructor <;> decide

theorem demands_eos :
    EncodingRow.Demands ⟨0xFFFFFFFFFFFFFFFFFF#72, 0x500000000000000000#72⟩ 5 true 0 := by
  constructor <;> decide

/-- The table of spec/30_encoding.md R83 asks row by row what the fields ask opcode by opcode. -/
theorem legal_iff_fieldsLegal (w : CmdWord) : legal w = true ↔ FieldsLegal w := by
  have hsetrate := demands_setrate.and_mask_eq_iff (len := 32) rfl w
  have hsetasize := demands_setasize.and_mask_eq_iff (len := 56) rfl w
  have hstart := demands_start.and_mask_eq_iff (len := 64) rfl w
  have hedge := demands_edge.and_mask_eq_iff (len := 0) rfl w
  have heos := demands_eos.and_mask_eq_iff (len := 64) rfl w
  rw [legal_iff_exists_row, encodingTable]
  simp only [List.exists_mem_cons_iff, List.not_mem_nil, false_and, exists_false, or_false, hsetrate, hsetasize,
    hstart, hedge, heos, FieldsLegal, wordData, Bool.and_true, Bool.and_false, BitVec.extractLsb'_eq_zero,
    BitVec.ofNat_eq_ofNat, and_true, ← and_or_left]

/-- Every row masks OP whole, and no two rows have the same OP. -/
theorem row_unique {w : CmdWord} {r r' : EncodingRow} (hr : r ∈ encodingTable) (hr' : r' ∈ encodingTable)
    (h : w &&& r.mask = r.value) (h' : w &&& r'.mask = r'.value) : r = r' := by
  have maskOp : ∀ r ∈ encodingTable, wordOp r.mask = BitVec.allOnes 4 := by decide
  have opUnique : ∀ r ∈ encodingTable, ∀ r' ∈ encodingTable, wordOp r.value = wordOp r'.value → r = r' := by decide
  refine opUnique r hr r' hr' ?_
  rw [← h, ← h', wordOp_and, wordOp_and, maskOp r hr, maskOp r' hr']

/-! ### The obligations -/

/-- Settles O1: every operand is read back from its field, and the must-be-zero bits are zero. -/
theorem decodeAfterEncode : Obligations.DecodeAfterEncode := decode_encode

/-- Settles O2: the operand and the must-be-zero bits make up the word. -/
theorem encodeAfterDecode : Obligations.EncodeAfterDecode := fun _ _ => decode_eq_ok_iff.mp

/-- An accepted word that is not legal is fault entry, outside FAULT. -/
theorem step_of_offered_illegal {s : State} {w : CmdWord} {ws : List CmdWord} {ts : List Turn}
    (hoffered : Offered s w ws ts) (hrun : s.runState ≠ .fault) (hillegal : legal w = false) :
    step s = .next (raiseFault .illegalCommand w { s with turns := ts, cmdIn := ws }) := by
  cases hdecode : decode w with
  | ok i =>
    have hlegal := (legal_iff_fieldsLegal w).mpr ((decodes_iff_fieldsLegal w).mp ⟨i, hdecode⟩)
    simp [hillegal] at hlegal
  | error e =>
    rw [step_of_offered_error hoffered hdecode]
    rcases illegalCommand_cases w { s with turns := ts, cmdIn := ws } with ⟨hfault, -⟩ | ⟨-, hraise⟩
    · exact absurd hfault hrun
    · rw [hraise]

/-- Settles O3: decoding and the table both say `FieldsLegal`; OP tells the rows apart. -/
theorem legalWordsDecode : Obligations.LegalWordsDecode :=
  ⟨fun w => (decodes_iff_fieldsLegal w).trans (legal_iff_fieldsLegal w).symm, legal_iff_fieldsLegal,
   legal_iff_exists_row, fun _ _ hr _ hr' => row_unique hr hr', fun _ _ _ _ => step_of_offered_illegal⟩

end Sys2Proof
end

