-- ==== Sys2Proof/Proofs/AssemblyWords.lean ====
section
/-! Command words as numbers and from assembly operands (spec/30_encoding.md R85, R86). -/

namespace Sys2Proof

/-! ### Words as numbers -/

theorem encode_setrate_toNat (rate : BitVec 32) :
    (encode (.setrate rate)).toNat = 0x1 * 2 ^ 68 + 0 * 2 ^ 64 + rate.toNat := by
  have hdata : (rate.setWidth 64).toNat = rate.toNat := BitVec.toNat_setWidth_of_le (by decide)
  rw [encode, assembleWord_toNat, hdata]
  rfl

theorem encode_setasize_toNat (size : BitVec 8) :
    (encode (.setasize size)).toNat = 0x2 * 2 ^ 68 + 0 * 2 ^ 64 + size.toNat := by
  have hdata : (size.setWidth 64).toNat = size.toNat := BitVec.toNat_setWidth_of_le (by decide)
  rw [encode, assembleWord_toNat, hdata]
  rfl

/-- Settles O4: the formula of an assembled word, with a narrow operand's value unchanged by its widening. -/
theorem encodedWordFormula : Obligations.EncodedWordFormula :=
  ⟨encode_setrate_toNat, encode_setasize_toNat, assembleWord_toNat 0x3 false 0,
   fun pos lvl => assembleWord_toNat 0x4 lvl pos, assembleWord_toNat 0x5 false 0, by decide, by decide, by decide,
   by decide, by decide⟩

/-- Settles O5: each word is its command's encoding. -/
theorem wordsOfTheSpecDecode : Obligations.WordsOfTheSpecDecode := by
  refine ⟨?_, ?_, ?_, ?_, ?_, ?_⟩ <;> exact decode_eq_ok_iff.mpr (by decide)

/-! ### Words of assembly commands -/

/-- The command of assembly operands, each taken modulo its field's range. -/
def AsmCmd.instr : AsmCmd → Instr
  | .setrate rate => .setrate (BitVec.ofNat 32 rate)
  | .setasize size => .setasize (BitVec.ofNat 8 size)
  | .start => .start
  | .edge pos lvl => .edge (BitVec.ofNat 64 pos) (lvl == 1)
  | .eos => .eos

theorem AsmCmd.word?_of_fits {c : AsmCmd} (h : c.fits = true) : c.word? = some (encode c.instr) := by
  unfold AsmCmd.word?
  rw [if_pos h]
  cases c <;> rfl

theorem AsmCmd.word?_eq_none_iff (c : AsmCmd) : c.word? = none ↔ c.fits = false := by
  cases h : c.fits with
  | true => simp [AsmCmd.word?_of_fits h]
  | false => simp [AsmCmd.word?, h]

theorem AsmCmd.fits_setrate (n : Nat) : (AsmCmd.setrate n).fits = true ↔ n < 2 ^ 32 := decide_eq_true_iff
theorem AsmCmd.fits_setasize (n : Nat) : (AsmCmd.setasize n).fits = true ↔ n < 2 ^ 8 := decide_eq_true_iff
theorem AsmCmd.fits_edge (p l : Nat) : (AsmCmd.edge p l).fits = true ↔ p < 2 ^ 64 ∧ l < 2 := by
  simp [AsmCmd.fits]

/-- Every encoding is legal by the table. -/
theorem legal_encode (i : Instr) : legal (encode i) = true := by
  cases i with
  | setrate rate => exact Laws.EncodesLegally.setrate rate
  | setasize size => exact Laws.EncodesLegally.setasize size
  | start => exact Laws.EncodesLegally.start
  | edge pos lvl => exact Laws.EncodesLegally.edge pos lvl
  | eos => exact Laws.EncodesLegally.eos

/-- Settles O7: operands that fit are their fields' values, and the word is the encoding of the command with them. -/
theorem assemblyWordsAreLegal : Obligations.AssemblyWordsAreLegal := by
  refine ⟨fun c => ⟨c.word?_eq_none_iff.mpr, fun h => ⟨_, AsmCmd.word?_of_fits h, legal_encode _⟩⟩,
    fun n => ⟨?_, fun h => ?_⟩, fun n => ⟨?_, fun h => ?_⟩, fun p l => ⟨?_, fun hp hl => ?_⟩,
    ⟨_, AsmCmd.word?_of_fits rfl, decode_encode _⟩, ⟨_, AsmCmd.word?_of_fits rfl, decode_encode _⟩⟩
  · rw [AsmCmd.word?_eq_none_iff, ← Bool.not_eq_true, AsmCmd.fits_setrate, not_lt]
  · exact ⟨_, _, AsmCmd.word?_of_fits ((AsmCmd.fits_setrate n).mpr h), decode_encode _, Nat.mod_eq_of_lt h⟩
  · rw [AsmCmd.word?_eq_none_iff, ← Bool.not_eq_true, AsmCmd.fits_setasize, not_lt]
  · exact ⟨_, _, AsmCmd.word?_of_fits ((AsmCmd.fits_setasize n).mpr h), decode_encode _, Nat.mod_eq_of_lt h⟩
  · rw [AsmCmd.word?_eq_none_iff, ← Bool.not_eq_true, AsmCmd.fits_edge, not_and_or, not_lt, not_lt]
  · exact ⟨_, _, _, AsmCmd.word?_of_fits ((AsmCmd.fits_edge p l).mpr ⟨hp, hl⟩), decode_encode _,
      Nat.mod_eq_of_lt hp, beq_iff_eq⟩

end Sys2Proof
end

