-- ==== Sys2Proof/Proofs/RecordWords.lean ====
section
/-! The fields of a record word and of the ADDRESS payload (spec/30_encoding.md R88, R89, R91). -/

namespace Sys2Proof.Machine

/-! ### The record word -/

theorem Record.word_payload (r : Record) : r.word.extractLsb' 0 64 = r.payload := BitVec.extractLsb'_append_eq_right

/-- END, with PAYLOAD below. -/
theorem Record.word_stop (r : Record) : r.word.extractLsb' 64 64 = r.stop := by
  unfold Record.word
  rw [BitVec.extractLsb'_append_eq_of_le (by decide)]
  exact BitVec.extractLsb'_append_eq_right

/-- START, with END and PAYLOAD below. -/
theorem Record.word_start (r : Record) : r.word.extractLsb' 128 64 = r.start := by
  unfold Record.word
  iterate 2 rw [BitVec.extractLsb'_append_eq_of_le (by decide)]
  exact BitVec.extractLsb'_append_eq_right

/-- CHAN, with three fields below. -/
theorem Record.word_chan (r : Record) : r.word.extractLsb' 192 2 = r.kind.chan := by
  unfold Record.word
  iterate 3 rw [BitVec.extractLsb'_append_eq_of_le (by decide)]
  exact BitVec.extractLsb'_append_eq_right

/-- The bits between KIND and CHAN. -/
theorem Record.word_zero (r : Record) : r.word.extractLsb' 194 2 = 0 := by
  unfold Record.word
  iterate 4 rw [BitVec.extractLsb'_append_eq_of_le (by decide)]
  exact BitVec.extractLsb'_append_eq_right

/-- KIND, the field on top. -/
theorem Record.word_kind (r : Record) : r.word.extractLsb' 196 4 = r.kind.code := by
  unfold Record.word
  iterate 4 rw [BitVec.extractLsb'_append_eq_of_le (by decide)]
  exact BitVec.extractLsb'_append_eq_left

/-- Settles O8: each field by its position in the word, the codes and channels by evaluation. -/
theorem recordWordFields : Obligations.RecordWordFields :=
  ⟨fun r => ⟨r.word_kind, r.word_zero, r.word_chan, r.word_start, r.word_stop, r.word_payload⟩, rfl, rfl⟩

/-! ### The ADDRESS payload -/

theorem addressPayload_toNat (len : BitVec 5) (buf : BitVec 28) :
    (addressPayload len buf).toNat = len.toNat * 2 ^ 28 + buf.toNat := by
  rw [addressPayload, BitVec.toNat_append, ← Nat.shiftLeft_add_eq_or_of_lt buf.isLt, BitVec.toNat_append,
    ← Nat.shiftLeft_add_eq_or_of_lt len.isLt]
  simp [Nat.shiftLeft_eq]

/-- Settles O9: the three fields and the value of the payload; index 0x05 of the status port is the payload of the
registers. -/
theorem addressPayloadLayout : Obligations.AddressPayloadLayout := by
  intro len buf
  refine ⟨addressPayload_buf len buf, addressPayload_len len buf, addressPayload_high len buf,
    addressPayload_toNat len buf, ?_⟩
  rintro r rfl rfl
  rfl

end Sys2Proof.Machine
end

