-- ==== Sys2Proof/Proofs/CommandRecords.lean ====
section
/-! The records that one command adds to the channel, by their kinds (spec/42_frame_assembler.md R161,
spec/30_encoding.md R92). -/

namespace Sys2Proof.Machine

/-- The kinds of the records that one EDGE can add, in order, under an ADDRESS_SIZE
(spec/42_frame_assembler.md R161). -/
def EdgeKinds (addressSize : BitVec 8) (kinds : List Kind) : Prop :=
  kinds = [] ∨ kinds = [.time, .pilot, .lambda] ∨ kinds = [.bit] ∨ kinds = [.bit, .address] ∨ kinds = [.bit, .btn] ∨
  kinds = [.bit, .anti] ∨ (kinds = [.bit, .address, .btn] ∧ addressSize = 24) ∨
  (kinds = [.bit, .address, .anti] ∧ addressSize = 28)

theorem EdgeKinds.length_le {addressSize : BitVec 8} {kinds : List Kind} (h : EdgeKinds addressSize kinds) :
    kinds.length ≤ 3 := by
  rcases h with rfl | rfl | rfl | rfl | rfl | rfl | ⟨rfl, -⟩ | ⟨rfl, -⟩ <;> decide

/-- The records of data bit `k` have the kinds of `kindsOfBit`. -/
theorem dataBit_adds (b : Bool) (e : Pos) (k : Nat) (s : State) :
    ∃ new : List Record, (dataBit b e k s).recOut = s.recOut ++ new ∧
      new.map Record.kind = kindsOfBit s.addressSize.toNat k := by
  have hlast : k + 1 = 29 ↔ k = 28 := by omega
  simp only [dataBit_recOut, List.append_assoc]
  refine ⟨_, rfl, ?_⟩
  simp only [kindsOfBit, List.map_append, apply_ite (List.map Record.kind), List.map_cons, List.map_nil, hlast,
    List.append_assoc]

/-- ADDRESS comes at bit ADDRESS_SIZE, BTN at bit 24 and ANTI at bit 28, so two of them together fix ADDRESS_SIZE. -/
theorem edgeKinds_kindsOfBit (addressSize : BitVec 8) (k : Nat) :
    EdgeKinds addressSize (kindsOfBit addressSize.toNat k) := by
  unfold kindsOfBit EdgeKinds
  by_cases hbtn : k = 24
  · subst hbtn
    by_cases haddr : 24 = addressSize.toNat
    · have hsize : addressSize = 24 := BitVec.eq_of_toNat_eq haddr.symm
      simp [hsize]
    · simp [haddr]
  · by_cases hanti : k = 28
    · subst hanti
      by_cases haddr : 28 = addressSize.toNat
      · have hsize : addressSize = 28 := BitVec.eq_of_toNat_eq haddr.symm
        simp [hsize]
      · simp [haddr]
    · simp only [if_neg hbtn, if_neg hanti]
      by_cases haddr : k = addressSize.toNat <;> simp [haddr]

/-- The state gained records of the kinds that one EDGE can add. -/
def AddsEdgeRecords (s t : State) : Prop :=
  ∃ new : List Record, t.recOut = s.recOut ++ new ∧ EdgeKinds s.addressSize (new.map Record.kind)

theorem addsEdgeRecords_of_same {s t : State} (h : t.recOut = s.recOut) : AddsEdgeRecords s t :=
  ⟨[], by rw [h, List.append_nil], .inl rfl⟩

theorem pulse_adds {p : Pulse} {s t : State} (heffect : PulseEffect p s t) : AddsEdgeRecords s t := by
  cases heffect with
  | ignored => exact addsEdgeRecords_of_same rfl
  | began => exact ⟨_, beginFrame_recOut p s, .inr (.inl rfl)⟩
  | abandoned => exact addsEdgeRecords_of_same rfl
  | marked => exact addsEdgeRecords_of_same rfl
  | tookBit b =>
    obtain ⟨new, hnew, hkinds⟩ := dataBit_adds b p.stop s.bitCount.toNat s
    exact ⟨new, hnew, hkinds ▸ edgeKinds_kindsOfBit _ _⟩

theorem exec_edge_adds {s t : State} {pos : Pos} {lvl : Bool} (heffect : ExecEffect s (.edge pos lvl) t) :
    AddsEdgeRecords s t := by
  cases heffect with
  | dropped => exact addsEdgeRecords_of_same rfl
  | faulted => exact addsEdgeRecords_of_same rfl
  | seeded => exact addsEdgeRecords_of_same rfl
  | pulsed _ _ _ hpulse => exact pulse_adds (s := latchEdge pos lvl s) hpulse

/-- A command other than EDGE leaves the record channel alone. -/
theorem exec_control_recOut {i : Instr} {s t : State} (heffect : ExecEffect s i t)
    (hcontrol : ∀ pos lvl, i ≠ .edge pos lvl) : t.recOut = s.recOut := by
  cases heffect with
  | dropped => rfl
  | faulted => rfl
  | rateSet => rfl
  | sizeSet => rfl
  | opened => rfl
  | closed => rfl
  | seeded => exact absurd rfl (hcontrol _ _)
  | pulsed => exact absurd rfl (hcontrol _ _)

/-- Settles O33: the outcomes of an EDGE and of the other commands, case by case. -/
theorem recordsOfOneCommand : Obligations.RecordsOfOneCommand := by
  refine ⟨fun s t pos lvl h => ?_, fun i s t hcontrol h => exec_control_recOut (exec_effect h) hcontrol⟩
  obtain ⟨new, hnew, hkinds⟩ := exec_edge_adds (exec_effect h)
  exact ⟨new, hnew, List.length_map Record.kind ▸ hkinds.length_le, hkinds⟩

end Sys2Proof.Machine
end

