-- ==== Sys2Proof/Proofs/PulseClasses.lean ====
section
/-! The Pulse Classifier as a function of a width (spec/41_pulse_classifier.md R127, R128, R131): the window, the bands
and the guard, over the naturals and over exact fractions of a second. -/

namespace Sys2Proof.Machine

/-! ### Samples and seconds -/

theorem cast_rate_pos {rate : BitVec 32} (h : rate ≠ 0) : (0 : ℚ) < (rate.toNat : ℚ) :=
  Nat.cast_pos.mpr (Nat.pos_of_ne_zero fun h0 => h (BitVec.eq_of_toNat_eq h0))

/-- Half of `n` lambda, in seconds, and a width in seconds, over the one denominator `46 * SAMPLE_RATE`. -/
theorem seconds_over_46 {rate : ℚ} (hrate : 0 < rate) (n syncW width : ℕ) :
    (n / 2 : ℚ) * (syncW / (23 * rate)) = (n * syncW : ℕ) / (46 * rate) ∧
    (width : ℚ) / rate = (46 * width : ℕ) / (46 * rate) := by
  constructor
  · push_cast
    field_simp
    ring
  · push_cast
    field_simp

/-- SAMPLE_RATE cancels from a comparison with a multiple of half a lambda (spec/41_pulse_classifier.md R128). -/
theorem halfLambdas_lt_seconds_iff {rate : ℚ} (hrate : 0 < rate) (n syncW width : ℕ) :
    (n / 2 : ℚ) * (syncW / (23 * rate)) < width / rate ↔ n * syncW < 46 * width := by
  obtain ⟨hlambda, hseconds⟩ := seconds_over_46 hrate n syncW width
  rw [hlambda, hseconds, div_lt_div_iff_of_pos_right (by positivity), Nat.cast_lt]

theorem seconds_lt_halfLambdas_iff {rate : ℚ} (hrate : 0 < rate) (n syncW width : ℕ) :
    (width : ℚ) / rate < (n / 2 : ℚ) * (syncW / (23 * rate)) ↔ 46 * width < n * syncW := by
  obtain ⟨hlambda, hseconds⟩ := seconds_over_46 hrate n syncW width
  rw [hlambda, hseconds, div_lt_div_iff_of_pos_right (by positivity), Nat.cast_lt]

/-! ### The sync window -/

/-- The window's integer comparisons are its bounds in seconds. -/
theorem syncWindow_iff_seconds {rate : BitVec 32} (hrate : rate ≠ 0) (width : Pos) :
    syncWindow rate width = true ↔
      (92 / 10000 : ℚ) < (width.toNat : ℚ) / (rate.toNat : ℚ) ∧
      (width.toNat : ℚ) / (rate.toNat : ℚ) < 138 / 10000 := by
  have hpos := cast_rate_pos hrate
  rw [syncWindow_iff, div_lt_div_iff₀ (by norm_num) hpos, div_lt_div_iff₀ hpos (by norm_num),
    mul_comm (width.toNat : ℚ) 10000]
  norm_cast

/-- Settles O23: the window over the naturals and over seconds, and the least and greatest width of each example. -/
theorem syncWindowIsTheOpenInterval : Obligations.SyncWindowIsTheOpenInterval := by
  refine ⟨syncWindow_iff, fun _ width hrate => syncWindow_iff_seconds hrate width, fun width => ?_, fun width => ?_⟩
  · have hrate : (1000000 : BitVec 32).toNat = 1000000 := rfl
    rw [syncWindow_iff, hrate]
    omega
  · have hrate : (48000 : BitVec 32).toNat = 48000 := rfl
    rw [syncWindow_iff, hrate]
    omega

/-! ### The bit bands -/

theorem inBitBand_true_iff (syncW : Pos) (width : Nat) :
    InBitBand syncW width true ↔ syncW.toNat < 46 * width ∧ 46 * width < 3 * syncW.toNat := Iff.rfl

theorem inBitBand_false_iff (syncW : Pos) (width : Nat) :
    InBitBand syncW width false ↔ 3 * syncW.toNat < 46 * width ∧ 46 * width < 5 * syncW.toNat := Iff.rfl

/-- The two bands do not overlap: Bit1 ends where Bit0 starts. -/
theorem not_inBitBand_false_of_true {syncW : Pos} {width : Nat} (h : InBitBand syncW width true) :
    ¬ InBitBand syncW width false := by
  rw [inBitBand_true_iff] at h
  rw [inBitBand_false_iff]
  omega

theorem band_of_bit1 {syncW width : Pos} (h : InBitBand syncW width.toNat true) : band syncW width = .bit1 :=
  if_pos h

theorem band_of_bit0 {syncW width : Pos} (h : InBitBand syncW width.toNat false) : band syncW width = .bit0 :=
  (if_neg fun h1 => not_inBitBand_false_of_true h1 h).trans (if_pos h)

theorem band_of_neither {syncW width : Pos} (h1 : ¬ InBitBand syncW width.toNat true)
    (h0 : ¬ InBitBand syncW width.toNat false) : band syncW width = .reject :=
  (if_neg h1).trans (if_neg h0)

/-- Each class of a width is one of the three cases: in the band of Bit1, in that of Bit0, in neither. -/
theorem band_iff (syncW width : Pos) :
    (band syncW width = .bit1 ↔ InBitBand syncW width.toNat true) ∧
    (band syncW width = .bit0 ↔ InBitBand syncW width.toNat false) ∧
    (band syncW width = .reject ↔
      ¬ InBitBand syncW width.toNat true ∧ ¬ InBitBand syncW width.toNat false) := by
  by_cases h1 : InBitBand syncW width.toNat true
  · have h0 := not_inBitBand_false_of_true h1
    simp only [band_of_bit1 h1, h1, h0, reduceCtorEq, not_true, not_false_iff, false_and, and_self]
  · by_cases h0 : InBitBand syncW width.toNat false
    · simp only [band_of_bit0 h0, h1, h0, reduceCtorEq, not_true, not_false_iff, and_false, and_self]
    · simp only [band_of_neither h1 h0, h1, h0, reduceCtorEq, not_false_iff, and_self]

/-- The bands are open intervals of half lambdas. -/
theorem inBitBand_iff_seconds {rate : ℚ} (hrate : 0 < rate) (syncW : Pos) (width : ℕ) :
    (InBitBand syncW width true ↔ 1 / 2 * ((syncW.toNat : ℚ) / (23 * rate)) < width / rate ∧
      (width : ℚ) / rate < 3 / 2 * (syncW.toNat / (23 * rate))) ∧
    (InBitBand syncW width false ↔ 3 / 2 * ((syncW.toNat : ℚ) / (23 * rate)) < width / rate ∧
      (width : ℚ) / rate < 5 / 2 * (syncW.toNat / (23 * rate))) := by
  have above (n : ℕ) := halfLambdas_lt_seconds_iff hrate n syncW.toNat width
  have below (n : ℕ) := seconds_lt_halfLambdas_iff hrate n syncW.toNat width
  constructor
  · simpa [inBitBand_true_iff] using and_congr (above 1).symm (below 3).symm
  · simpa [inBitBand_false_iff] using and_congr (above 3).symm (below 5).symm

/-- Settles O24: the classes by the two bands, each band in seconds, and the three bounds outside both. -/
theorem bandsAreTheOpenIntervals : Obligations.BandsAreTheOpenIntervals := by
  refine ⟨band_iff, fun rate syncW width hrate => ?_, fun syncW width hbound => ?_⟩
  · obtain ⟨hbit1, hbit0⟩ := inBitBand_iff_seconds (cast_rate_pos hrate) syncW width.toNat
    have hclasses := band_iff syncW width
    rwa [hbit1, hbit0] at hclasses
  · refine band_of_neither ?bit1 ?bit0
    case bit1 => rw [inBitBand_true_iff]; omega
    case bit0 => rw [inBitBand_false_iff]; omega

/-! ### The sync guard -/

/-- Settles O25: the model's guard on a positive width. -/
theorem syncGuardAlwaysHolds : Obligations.SyncGuardAlwaysHolds :=
  fun _ => syncGuard_of_pos

end Sys2Proof.Machine
end

