-- ==== Sys2Proof/Proofs/EdgeChecks.lean ====
section
/-! EDGE in RUN, case by case (spec/41_pulse_classifier.md R120 to R133): its checks, the pulse it forms, the pulse
that is no sync, and what it does not read in frame. -/

namespace Sys2Proof.Machine

/-! ### The checks, one equation a case -/

theorem exec_edge_of_run {s : State} (hrun : s.runState = .run) (pos : Pos) (lvl : Bool) :
    exec (.edge pos lvl) s = .next (deliverEdge (encode (.edge pos lvl)) pos lvl s) :=
  congrArg Host.Outcome.next (whenAccepted_of_accepting hrun nofun)

theorem deliverEdge_of_first {s : State} (hfirst : s.seeded = false) (w : CmdWord) (pos : Pos) (lvl : Bool) :
    deliverEdge w pos lvl s = if lvl = s.lastLvl then raiseFault .malformedLevel w s else seedEdge pos lvl s :=
  if_pos hfirst

theorem deliverEdge_of_repeatedPosition {s : State} {pos : Pos} (hseeded : s.seeded = true) (hpos : pos ≤ s.lastPos)
    (w : CmdWord) (lvl : Bool) : deliverEdge w pos lvl s = raiseFault .malformedOrder w s := by
  simp only [deliverEdge, hseeded, hpos, reduceCtorEq, if_false, if_true]

theorem deliverEdge_of_later {s : State} {pos : Pos} (hseeded : s.seeded = true) (hlater : s.lastPos < pos)
    (w : CmdWord) (lvl : Bool) : deliverEdge w pos lvl s =
      if lvl = s.lastLvl then raiseFault .malformedLevel w s else processPulse pos lvl s := by
  simp only [deliverEdge, hseeded, BitVec.not_le.mpr hlater, reduceCtorEq, if_false]

/-- The level check comes last, on a first edge and on a later one (spec/60_exceptions.md R248). -/
theorem deliverEdge_of_repeatedLevel {s : State} {pos : Pos} (hlater : s.seeded = true → s.lastPos < pos)
    (w : CmdWord) : deliverEdge w pos s.lastLvl s = raiseFault .malformedLevel w s := by
  cases hseeded : s.seeded with
  | false => rw [deliverEdge_of_first hseeded, if_pos rfl]
  | true => rw [deliverEdge_of_later hseeded (hlater hseeded), if_pos rfl]

/-- Settles O19: the session's invariant gives the hint 0, so level 1 passes the level check and level 0 fails it. -/
theorem firstEdgeSeeds : Obligations.FirstEdgeSeeds := by
  intro s pos hrun hfirst hsession
  obtain ⟨-, -, hhint, -⟩ := hsession
  obtain ⟨hlow, -⟩ := hhint ⟨hrun, hfirst⟩
  refine ⟨hlow, ?_, ?_⟩
  · rw [exec_edge_of_run hrun, deliverEdge_of_first hfirst, hlow, if_neg nofun]
    rfl
  · rw [exec_edge_of_run hrun, deliverEdge_of_first hfirst, if_pos hlow.symm]
    rfl

/-- Settles O20: the position check comes first on a later edge. -/
theorem repeatedPositionFaults : Obligations.RepeatedPositionFaults := by
  intro s pos lvl hrun hseeded hpos
  rw [exec_edge_of_run hrun, deliverEdge_of_repeatedPosition hseeded hpos]
  rfl

/-- Settles O21: the level check on a first and on a later edge. -/
theorem repeatedLevelFaults : Obligations.RepeatedLevelFaults := by
  rintro s pos _ hrun rfl hlater
  rw [exec_edge_of_run hrun, deliverEdge_of_repeatedLevel hlater]
  rfl

/-! ### The formed pulse and its class -/

/-- Moving the last-edge memory before the pulse is classified does not change its class
(spec/41_pulse_classifier.md R129, R133). -/
theorem classify_latchEdge (p : Pulse) (pos : Pos) (lvl : Bool) (s : State) :
    classify p (latchEdge pos lvl s).toRegs = classify p s.toRegs := rfl

theorem exec_edge_of_formsPulse {s : State} {pos : Pos} {lvl : Bool} (h : FormsPulse s pos lvl) :
    exec (.edge pos lvl) s = .next
      (assemble (classify (pulseOf pos lvl s.toRegs) s.toRegs) (pulseOf pos lvl s.toRegs) (latchEdge pos lvl s)) := by
  obtain ⟨hrun, hseeded, hlater, hlvl⟩ := h
  have hchanged : lvl ≠ s.lastLvl := by simp [hlvl]
  rw [exec_edge_of_run hrun, deliverEdge_of_later hseeded hlater, if_neg hchanged, processPulse, classify_latchEdge]

/-- A formed pulse is as wide as the samples since the last edge. -/
theorem pulseOf_width_toNat {s : State} {pos : Pos} (hlater : s.lastPos < pos) (lvl : Bool) :
    (pulseOf pos lvl s.toRegs).width.toNat = samplesTo s pos :=
  (Pulse.width_toNat (p := pulseOf pos lvl s.toRegs) hlater).1

/-- In IDLE the class is sync or ignore (spec/41_pulse_classifier.md R129). -/
theorem classify_of_idle {r : Regs} (hidle : r.inFrame = false) (p : Pulse) :
    classify p r = if p.value = false ∧ syncWindow r.sampleRate p.width = true then .sync else .ignore :=
  if_pos hidle

/-- In frame the class is that of the width, or ignore; SAMPLE_RATE is not read (spec/41_pulse_classifier.md R129). -/
theorem classify_of_inFrame {r : Regs} (hframe : r.inFrame = true) (p : Pulse) :
    classify p r = if p.value = true ∧ r.bitCount.toNat < 29 then band r.syncW p.width else .ignore :=
  if_neg (by simp [hframe])

/-- Settles O28: the pulse is high, or low with a width that the window excludes, so its class is ignore. -/
theorem idlePulseOutsideWindowIsNoOp : Obligations.IdlePulseOutsideWindowIsNoOp := by
  intro s pos lvl hforms hidle houtside
  have hnosync : ¬ ((pulseOf pos lvl s.toRegs).value = false ∧
      syncWindow s.sampleRate (pulseOf pos lvl s.toRegs).width = true) := by
    rintro ⟨hlow, hwindow⟩
    obtain ⟨-, -, hlater, -⟩ := hforms
    obtain ⟨hnarrow, hwide⟩ := (syncWindow_iff _ _).mp hwindow
    rw [pulseOf_width_toNat hlater] at hnarrow hwide
    rcases houtside with rfl | hout | hout
    · simp [pulseOf] at hlow
    · exact absurd hnarrow (Nat.not_lt.mpr hout)
    · exact absurd hwide (Nat.not_lt.mpr hout)
  rw [exec_edge_of_formsPulse hforms, classify_of_idle hidle, if_neg hnosync]
  rfl

/-! ### SAMPLE_RATE in frame

Every part of an EDGE commutes with a change of SAMPLE_RATE; the classifier does in frame. -/

theorem whenAccepted_setSampleRate {rate : BitVec 32} {body : State → State} {s : State}
    (hbody : body (setSampleRate rate s) = setSampleRate rate (body s)) (needs : RunState) (w : CmdWord) :
    whenAccepted needs w body (setSampleRate rate s) = setSampleRate rate (whenAccepted needs w body s) := by
  unfold whenAccepted
  rw [setSampleRate_runState, hbody, apply_ite (setSampleRate rate), apply_ite (setSampleRate rate)]
  rfl

theorem dataBit_setSampleRate (rate : BitVec 32) (b : Bool) (e : Pos) (k : Nat) (s : State) :
    dataBit b e k (setSampleRate rate s) = setSampleRate rate (dataBit b e k s) := by
  apply State.ext <;> simp [dataBit] <;> rfl

/-- No transition of the assembler reads or writes SAMPLE_RATE. -/
theorem assemble_setSampleRate (rate : BitVec 32) (c : PulseClass) (p : Pulse) (s : State) :
    assemble c p (setSampleRate rate s) = setSampleRate rate (assemble c p s) := by
  have take (b : Bool) : takeBit b p.stop (setSampleRate rate s) = setSampleRate rate (takeBit b p.stop s) := by
    unfold takeBit
    rw [setSampleRate_bitCount, dataBit_setSampleRate, apply_ite (setSampleRate rate)]
    rfl
  cases c with
  | ignore => rfl
  | sync => rfl
  | reject => rfl
  | bit1 => exact take true
  | bit0 => exact take false

theorem classify_setSampleRate_of_inFrame {s : State} (hframe : s.inFrame = true) (rate : BitVec 32) (p : Pulse) :
    classify p (setSampleRate rate s).toRegs = classify p s.toRegs := by
  rw [classify_of_inFrame hframe, classify_of_inFrame (r := (setSampleRate rate s).toRegs) hframe]
  rfl

theorem processPulse_setSampleRate_of_inFrame {s : State} (hframe : s.inFrame = true) (rate : BitVec 32) (pos : Pos)
    (lvl : Bool) : processPulse pos lvl (setSampleRate rate s) = setSampleRate rate (processPulse pos lvl s) := by
  simp only [processPulse, classify_latchEdge, classify_setSampleRate_of_inFrame hframe]
  exact assemble_setSampleRate rate _ _ (latchEdge pos lvl s)

theorem deliverEdge_setSampleRate_of_inFrame {s : State} (hframe : s.inFrame = true) (rate : BitVec 32) (w : CmdWord)
    (pos : Pos) (lvl : Bool) :
    deliverEdge w pos lvl (setSampleRate rate s) = setSampleRate rate (deliverEdge w pos lvl s) := by
  unfold deliverEdge
  rw [processPulse_setSampleRate_of_inFrame hframe]
  simp only [apply_ite (setSampleRate rate)]
  rfl

/-- Settles O26: the checks before the command's own do not read SAMPLE_RATE, and its body does not in frame. -/
theorem sampleRateIsNotReadInFrame : Obligations.SampleRateIsNotReadInFrame := by
  intro s t rate pos lvl hframe h
  obtain rfl : _ = t := Host.Outcome.next.inj h
  exact congrArg Host.Outcome.next
    (whenAccepted_setSampleRate (deliverEdge_setSampleRate_of_inFrame hframe rate _ pos lvl) .run _)

end Sys2Proof.Machine
end

