-- ==== Sys2Proof/Proofs/FrameTransitions.lean ====
section
/-! The Frame Assembler's table, row by row (spec/42_frame_assembler.md R151 to R161): for each class of a formed pulse
the next state of EDGE, then the length that an ADDRESS record holds. -/

namespace Sys2Proof.Machine

/-- Two states agree when their registers, their channels and their agents do. -/
theorem State.eq_of_toRegs {s t : State} (hregs : s.toRegs = t.toRegs) (hrecords : s.recOut = t.recOut)
    (hagents : s.cmdIn = t.cmdIn ∧ s.turns = t.turns ∧ s.taken = t.taken) : s = t := by
  obtain ⟨hcmd, hturns, htaken⟩ := hagents
  cases s
  cases t
  subst hregs hrecords hcmd hturns htaken
  rfl

/-! ### IDLE, Sync -/

/-- A formed pulse's width as the statements write it. -/
theorem pulseOf_width {s : State} {pos : Pos} (hlater : s.lastPos < pos) (lvl : Bool) :
    (pulseOf pos lvl s.toRegs).width = BitVec.ofNat 64 (samplesTo s pos) := by
  rw [← pulseOf_width_toNat hlater lvl, BitVec.ofNat_toNat, BitVec.setWidth_eq]

/-- A low pulse inside the window is a sync (spec/41_pulse_classifier.md R129). -/
theorem exec_edge_of_syncPulse {s : State} {pos : Pos} (hforms : FormsPulse s pos true) (hidle : s.inFrame = false)
    (hnarrow : 92 * s.sampleRate.toNat < 10000 * samplesTo s pos)
    (hwide : 10000 * samplesTo s pos < 138 * s.sampleRate.toNat) :
    exec (.edge pos true) s = .next (beginFrame (pulseOf pos true s.toRegs) (latchEdge pos true s)) := by
  have ⟨_, _, hlater, _⟩ := hforms
  have hwindow : syncWindow s.sampleRate (pulseOf pos true s.toRegs).width = true := by
    rw [syncWindow_iff, pulseOf_width_toNat hlater]
    exact ⟨hnarrow, hwide⟩
  rw [exec_edge_of_formsPulse hforms, classify_of_idle hidle, if_pos ⟨rfl, hwindow⟩]
  rfl

/-- The registers a sync leaves, its guard being true for every formed pulse (spec/41_pulse_classifier.md R131). -/
theorem beginFrame_toRegs {p : Pulse} (hlater : p.start < p.stop) (s : State) :
    (beginFrame p s).toRegs = { s.toRegs with
      syncW := p.width, inFrame := true, bitCount := 0, addrBuf := 0, addrLen := 0, frameStart := p.start
      addrStart := p.stop, lastBitEnd := p.stop, btnStart := p.stop, antiStart := p.stop } := by
  have hguard := syncGuard_of_pos (Pulse.width_toNat hlater).2
  apply Regs.ext <;> simp [hguard]

/-- Settles O27: the pulse is a sync of width `samplesTo s pos`, and the guard holds. -/
theorem syncPulseBeginsFrame : Obligations.SyncPulseBeginsFrame := by
  intro s pos hforms hidle hnarrow hwide
  have ⟨_, _, hlater, _⟩ := hforms
  rw [exec_edge_of_syncPulse hforms hidle hnarrow hwide, ← pulseOf_width hlater true]
  exact congrArg Host.Outcome.next
    (State.eq_of_toRegs (beginFrame_toRegs hlater _) (beginFrame_recOut _ _) ⟨rfl, rfl, rfl⟩)

/-! ### In frame, by the class of the pulse -/

/-- Settles O32: a low pulse in frame is ignored, whatever its width. -/
theorem inFrameLowPulseIsIgnored : Obligations.InFrameLowPulseIsIgnored := by
  intro s pos hforms hframe
  rw [exec_edge_of_formsPulse hforms, classify_of_inFrame hframe, if_neg (by simp [pulseOf])]
  rfl

/-- A high pulse in frame takes the class of its width (spec/41_pulse_classifier.md R128, R129). -/
theorem exec_edge_of_highPulse {s : State} {pos : Pos} (hforms : FormsPulse s pos false) (hframe : s.inFrame = true)
    (hcount : s.bitCount.toNat < 29) :
    exec (.edge pos false) s = .next (assemble (band s.syncW (pulseOf pos false s.toRegs).width)
      (pulseOf pos false s.toRegs) (latchEdge pos false s)) := by
  rw [exec_edge_of_formsPulse hforms, classify_of_inFrame hframe, if_pos ⟨rfl, hcount⟩]

/-- A high pulse in the band of bit `b` is taken as that bit. -/
theorem exec_edge_of_inBitBand {s : State} {pos : Pos} {b : Bool} (hforms : FormsPulse s pos false)
    (hframe : s.inFrame = true) (hcount : s.bitCount.toNat < 29) (hband : InBitBand s.syncW (samplesTo s pos) b) :
    exec (.edge pos false) s = .next (takeBit b pos (latchEdge pos false s)) := by
  have ⟨_, _, hlater, _⟩ := hforms
  rw [exec_edge_of_highPulse hforms hframe hcount]
  rw [← pulseOf_width_toNat hlater false] at hband
  cases b with
  | true => rw [band_of_bit1 hband]; rfl
  | false => rw [band_of_bit0 hband]; rfl

theorem takeBit_of_marker {s : State} (hzero : s.bitCount = 0) (b : Bool) (e : Pos) :
    takeBit b e s = consumeMarker e s :=
  if_pos hzero

theorem takeBit_of_dataBit {s : State} (hzero : s.bitCount ≠ 0) (b : Bool) (e : Pos) :
    takeBit b e s = dataBit b e s.bitCount.toNat s :=
  if_neg hzero

/-- Settles O29: in either band at count 0 the bit is the marker. -/
theorem boundaryMarkerRecordsNoBit : Obligations.BoundaryMarkerRecordsNoBit := by
  intro s pos b hforms hframe hzero hband
  rw [exec_edge_of_inBitBand hforms hframe (by simp [hzero]) hband,
    takeBit_of_marker (s := latchEdge pos false s) hzero]
  rfl

/-- Settles O31: a width in neither band is a reject, whatever the count up to 28 is. -/
theorem rejectAbandonsFrame : Obligations.RejectAbandonsFrame := by
  intro s pos hforms hframe ⟨hcount, _⟩ hbit1 hbit0
  have ⟨_, _, hlater, _⟩ := hforms
  rw [← pulseOf_width_toNat hlater false] at hbit1 hbit0
  rw [exec_edge_of_highPulse hforms hframe (Nat.lt_succ_of_le hcount), band_of_neither hbit1 hbit0]
  rfl

/-! ### A data bit -/

/-- At a count other than 0 the bit is data bit number BIT_COUNT. -/
theorem exec_edge_of_dataBit {s : State} {pos : Pos} {b : Bool} (hforms : FormsPulse s pos false)
    (hframe : s.inFrame = true) (hzero : s.bitCount ≠ 0) (hcount : s.bitCount.toNat ≤ 28)
    (hband : InBitBand s.syncW (samplesTo s pos) b) :
    exec (.edge pos false) s = .next (dataBit b pos s.bitCount.toNat (latchEdge pos false s)) := by
  rw [exec_edge_of_inBitBand hforms hframe (Nat.lt_succ_of_le hcount) hband,
    takeBit_of_dataBit (s := latchEdge pos false s) hzero]
  rfl

/-- What R43 says of the address buffer in a running frame at data bit `k`: it holds `min (k - 1) ADDRESS_SIZE` bits. -/
theorem buffer_of_inFrame {r : Regs} (hrun : r.runState = .run) (hframe : r.inFrame = true) (hzero : r.bitCount ≠ 0)
    (h : RegsConsistent r) :
    1 ≤ r.bitCount.toNat ∧ r.bitCount.toNat ≤ 28 ∧
    r.addrLen.toNat = min (r.bitCount.toNat - 1) r.addressSize.toNat ∧ r.addrBuf.toNat < 2 ^ r.addrLen.toNat := by
  obtain ⟨hcount, -, ⟨-, hbuf⟩, -, hopen, -⟩ := h
  obtain ⟨hlen, -⟩ := hopen ⟨hrun, hframe⟩
  exact ⟨Nat.one_le_iff_ne_zero.mpr fun h0 => hzero (BitVec.eq_of_toNat_eq h0), hcount, by omega, hbuf⟩

/-- The append in a running frame, on the registers' numbers: nothing wraps (spec/42_frame_assembler.md R154). -/
theorem appendBit_of_inFrame {s : State} (b : Bool) (hrun : s.runState = .run) (hframe : s.inFrame = true)
    (hzero : s.bitCount ≠ 0) (h : RegsConsistent s.toRegs) :
    (s.bitCount.toNat ≤ s.addressSize.toNat →
      (appendBit b s.bitCount.toNat s).addrBuf.toNat = s.addrBuf.toNat * 2 + b.toNat ∧
      (appendBit b s.bitCount.toNat s).addrLen.toNat = s.addrLen.toNat + 1) ∧
    (s.addressSize.toNat < s.bitCount.toNat →
      (appendBit b s.bitCount.toNat s).addrBuf = s.addrBuf ∧ (appendBit b s.bitCount.toNat s).addrLen = s.addrLen) := by
  obtain ⟨hpos, hcount, hlen, hbuf⟩ := buffer_of_inFrame hrun hframe hzero h
  refine ⟨fun hfits => (appendBit_toNat hcount hlen hbuf hpos hfits).symm, fun hfull => ?_⟩
  simp [Nat.not_le.mpr hfull]

theorem bitPayload_eq (b : Bool) : bitPayload b = if b then 1 else 0 := by
  cases b <;> rfl

theorem addressPayload_eq_ofNat (len : BitVec 5) (buf : BitVec 28) :
    addressPayload len buf = BitVec.ofNat 64 (len.toNat * 2 ^ 28 + buf.toNat) := by
  rw [← addressPayload_toNat, BitVec.ofNat_toNat, BitVec.setWidth_eq]

/-- The triggers of data bit BIT_COUNT, on the number and on the register: BTN at 24, completion at 28. -/
theorem bitCount_triggers (n : BitVec 5) : (n.toNat = 24 ↔ n = 24) ∧ (n.toNat + 1 = 29 ↔ n = 28) :=
  ⟨BitVec.toNat_inj (y := 24), Nat.succ_inj.trans (BitVec.toNat_inj (y := 28))⟩

theorem ofNat_toNat_succ (n : BitVec 5) : BitVec.ofNat 5 (n.toNat + 1) = n + 1 := by
  rw [BitVec.ofNat_add, BitVec.ofNat_toNat, BitVec.setWidth_eq]
  rfl

/-- Settles O30: the state after the five operations of a data bit, its numbers read as the registers' values. -/
theorem dataBitTransition : Obligations.DataBitTransition := by
  intro s pos b hforms hframe hzero hband hregs
  have ⟨hrun, _, hlater, _⟩ := hforms
  have ⟨hcount, _⟩ := hregs
  obtain ⟨hbtn, hlast⟩ := bitCount_triggers s.bitCount
  obtain ⟨hfits, hfull⟩ := appendBit_of_inFrame (s := latchEdge pos false s) b hrun hframe hzero
    (latchEdge_keeps_regs hlater hregs)
  refine ⟨_, _, hfits, hfull, ?_⟩
  rw [exec_edge_of_dataBit hforms hframe hzero hcount hband]
  refine congrArg Host.Outcome.next (State.eq_of_toRegs ?regs ?records (dataBit_agents _ _ _ _))
  case regs =>
    have hopen : (if s.bitCount = 28 then false else s.inFrame) = decide (s.bitCount ≠ 28) := by simp [hframe]
    rw [dataBit_toRegs, ofNat_toNat_succ]
    simp only [hbtn, hlast, latchEdge_inFrame, hopen]
    rfl
  case records =>
    have hanti (r : Pos → Record) : (if s.bitCount = 28 then [r (if s.bitCount = 24 then pos else s.antiStart)] else [])
        = if s.bitCount = 28 then [r s.antiStart] else [] :=
      ite_congr rfl (fun h28 => by rw [h28, if_neg (by decide)]) fun _ => rfl
    rw [dataBit_recOut, bitPayload_eq, addressPayload_eq_ofNat]
    simp only [hbtn, hlast]
    exact congrArg _ (hanti fun start => ⟨.anti, start, pos, 0⟩)

/-! ### The length of an ADDRESS record -/

/-- A transition that keeps the channel adds no record. -/
theorem not_mem_of_append_self {old new : List Record} {r : Record} (h : old = old ++ new) : r ∉ new := by
  simp [List.self_eq_append_right.mp h]

/-- An ADDRESS record of a data bit holds the buffer's length after the append and spans from ADDR_START. -/
theorem dataBit_addressRecord {b : Bool} {e : Pos} {k : Nat} {s : State} {new : List Record} {r : Record}
    (hnew : (dataBit b e k s).recOut = s.recOut ++ new) (hr : r ∈ new) (hkind : r.kind = .address) :
    k = s.addressSize.toNat ∧
    r = ⟨.address, s.addrStart, e, addressPayload (appendBit b k s).addrLen (appendBit b k s).addrBuf⟩ := by
  simp only [dataBit_recOut, List.append_assoc, List.append_cancel_left_eq] at hnew
  subst hnew
  simp only [List.mem_append, List.mem_singleton, List.mem_ite_nil_right] at hr
  rcases hr with rfl | ⟨hk, rfl⟩ | ⟨-, rfl⟩ | ⟨-, rfl⟩
  · cases hkind
  · exact ⟨hk, rfl⟩
  · cases hkind
  · cases hkind

/-- No record of a sync is an ADDRESS record, and the other transitions but a data bit add none. -/
theorem pulse_addressRecord {p : Pulse} {s t : State} {new : List Record} {r : Record} (heffect : PulseEffect p s t)
    (hrun : s.runState = .run) (hregs : RegsConsistent s.toRegs) (hnew : t.recOut = s.recOut ++ new) (hr : r ∈ new)
    (hkind : r.kind = .address) :
    (r.payload.extractLsb' 28 5).toNat = s.addressSize.toNat ∧ r.start = s.addrStart ∧ r.stop = p.stop := by
  cases heffect with
  | ignored => exact absurd hr (not_mem_of_append_self hnew)
  | began =>
    rw [beginFrame_recOut, List.append_cancel_left_eq] at hnew
    subst hnew
    simp only [List.mem_cons, List.not_mem_nil, or_false] at hr
    rcases hr with rfl | rfl | rfl <;> cases hkind
  | abandoned => exact absurd hr (not_mem_of_append_self hnew)
  | marked => exact absurd hr (not_mem_of_append_self hnew)
  | tookBit b hframe hzero =>
    obtain ⟨hpos, hcount, hlen, hbuf⟩ := buffer_of_inFrame hrun hframe hzero hregs
    obtain ⟨hk, rfl⟩ := dataBit_addressRecord hnew hr hkind
    obtain ⟨hheld, -⟩ := appendBit_holds (b := b) hcount hpos hlen hbuf
    refine ⟨?_, rfl, rfl⟩
    rw [addressPayload_len, hheld, hk, Nat.min_self]

/-- Settles O34: only a data bit emits an ADDRESS record, and R43 bounds the buffer it describes. -/
theorem addressRecordLengthIsAddressSize : Obligations.AddressRecordLengthIsAddressSize := by
  intro s t pos lvl hregs h new hnew r hr hkind
  cases exec_effect h with
  | dropped => exact absurd hr (not_mem_of_append_self hnew)
  | faulted => exact absurd hr (not_mem_of_append_self hnew)
  | seeded => exact absurd hr (not_mem_of_append_self hnew)
  | pulsed hrun _ hlater hpulse =>
    exact pulse_addressRecord hpulse hrun (latchEdge_keeps_regs hlater hregs) hnew hr hkind

end Sys2Proof.Machine
end

