-- ==== Sys2Proof/Proofs/CompleteFrame.lean ====
section
/-! A complete frame (spec/42_frame_assembler.md R162 to R164): what a state holds after the marker and any number of
data bits, kept by every bit cell, hence by a run over 28 of them. -/

namespace Sys2Proof.Machine

/-! ### The base-2 numeral of the first bits -/

theorem numeral_concat (bits : List Bool) (b : Bool) : numeral (bits ++ [b]) = numeral bits * 2 + b.toNat := by
  simp [numeral]

/-- One more bit changes the numeral of the first `n` bits only while there are fewer than `n`. -/
theorem numeral_take_concat (bits : List Bool) (b : Bool) (n : Nat) :
    numeral ((bits ++ [b]).take n) =
      if bits.length + 1 ≤ n then numeral (bits.take n) * 2 + b.toNat else numeral (bits.take n) := by
  split
  next hfits =>
    rw [List.take_of_length_le (by simpa using hfits), List.take_of_length_le (by omega), numeral_concat]
  next hfull => rw [List.take_append_of_le_length (by omega)]

/-! ### Edges one after another -/

theorem deliverEdges_cons {s t : State} {pos : Pos} {lvl : Bool} (h : exec (.edge pos lvl) s = .next t)
    (es : List (Pos × Bool)) : deliverEdges ((pos, lvl) :: es) s = deliverEdges es t := by
  rw [deliverEdges, h]

/-- The state after a cell in frame past the marker: the last-edge memory at the falling edge, and the data bit. -/
def afterCell (c : BitCell) (s : State) : State :=
  dataBit c.bit c.fall s.bitCount.toNat (latchEdge c.fall false s)

/-- A cell's low gap is ignored and its high pulse is a data bit. -/
theorem deliverEdges_cell {s : State} {c : BitCell} (hrun : s.runState = .run) (hseeded : s.seeded = true)
    (hlow : s.lastLvl = false) (hframe : s.inFrame = true) (hzero : s.bitCount ≠ 0) (hcount : s.bitCount.toNat ≤ 28)
    (hrise : s.lastPos < c.rise) (hfall : c.rise < c.fall)
    (hband : InBitBand s.syncW (c.fall.toNat - c.rise.toNat) c.bit) (es : List (Pos × Bool)) :
    deliverEdges (c.edges ++ es) s = deliverEdges es (afterCell c s) := by
  have hgap : exec (.edge c.rise true) s = .next (latchEdge c.rise true s) :=
    inFrameLowPulseIsIgnored s c.rise ⟨hrun, hseeded, hrise, by simp [hlow]⟩ hframe
  have hpulse : exec (.edge c.fall false) (latchEdge c.rise true s) = .next (afterCell c s) :=
    exec_edge_of_dataBit (s := latchEdge c.rise true s) ⟨hrun, hseeded, hfall, rfl⟩ hframe hzero hcount hband
  exact (deliverEdges_cons hgap _).trans (deliverEdges_cons hpulse es)

/-! ### A frame after some of its data bits -/

/-- What the state `s` holds after the marker and the data bits `bits` of a frame that a sync opened in `start`. With
all 28 bits taken the frame is complete. -/
structure FrameHolds (start : State) (bits : List Bool) (s : State) : Prop where
  consistent : RegsConsistent s.toRegs
  running : s.runState = .run
  seeded : s.seeded = true
  low : s.lastLvl = false
  syncW : s.syncW = start.syncW
  addressSize : s.addressSize = start.addressSize
  inFrame : s.inFrame = decide (bits.length < 28)
  count : s.bitCount.toNat = if bits.length < 28 then bits.length + 1 else 0
  length : s.addrLen.toNat = min bits.length start.addressSize.toNat
  value : s.addrBuf.toNat = numeral (bits.take start.addressSize.toNat)
  kinds : s.recOut.map Record.kind = start.recOut.map Record.kind ++
    (List.range bits.length).flatMap fun j => kindsOfBit start.addressSize.toNat (j + 1)

/-- The marker leaves a frame with no data bit and an empty buffer. -/
theorem frameHolds_marker {s : State} {marker : Pos} (hforms : FormsPulse s marker false) (hframe : s.inFrame = true)
    (hzero : s.bitCount = 0) (h : RegsConsistent s.toRegs) :
    FrameHolds s [] (consumeMarker marker (latchEdge marker false s)) := by
  obtain ⟨hrun, hseeded, hlater, -⟩ := hforms
  have hlatched : RegsConsistent (latchEdge marker false s).toRegs := latchEdge_keeps_regs hlater h
  obtain ⟨-, -, ⟨-, hbuf⟩, -, hopen, -⟩ := h
  obtain ⟨hlen, -⟩ := hopen ⟨hrun, hframe⟩
  have hempty : s.addrLen.toNat = 0 := by simpa [hzero] using hlen
  rw [hempty, Nat.pow_zero, Nat.lt_one_iff] at hbuf
  exact {
    consistent := consumeMarker_keeps_regs (s := latchEdge marker false s) hframe hzero hlatched
    running := hrun
    seeded := hseeded
    low := rfl
    syncW := rfl
    addressSize := rfl
    inFrame := hframe
    count := rfl
    length := by simpa using hempty
    value := by simpa [numeral] using hbuf
    kinds := by simp }

theorem afterCell_lastPos (c : BitCell) (s : State) : (afterCell c s).lastPos = c.fall := by
  simp [afterCell]

/-- Before its last bit the frame is open at the count of the next data bit. -/
theorem FrameHolds.open_of_room {start s : State} {bits : List Bool} (h : FrameHolds start bits s)
    (hroom : bits.length < 28) : s.inFrame = true ∧ s.bitCount.toNat = bits.length + 1 ∧ s.bitCount ≠ 0 := by
  have hcount : s.bitCount.toNat = bits.length + 1 := h.count.trans (if_pos hroom)
  refine ⟨h.inFrame.trans (decide_eq_true hroom), hcount, fun hzero => ?_⟩
  simp [hzero] at hcount

/-- The append of the next data bit, on the frame's bits (spec/42_frame_assembler.md R154, R162). -/
theorem FrameHolds.append {start s : State} {bits : List Bool} (b : Bool) (h : FrameHolds start bits s)
    (hroom : bits.length < 28) :
    (appendBit b s.bitCount.toNat s).addrLen.toNat = min (bits.length + 1) start.addressSize.toNat ∧
    (appendBit b s.bitCount.toNat s).addrBuf.toNat = numeral ((bits ++ [b]).take start.addressSize.toNat) := by
  obtain ⟨hframe, hcount, hzero⟩ := h.open_of_room hroom
  obtain ⟨hfits, hfull⟩ := appendBit_of_inFrame b h.running hframe hzero h.consistent
  rw [h.addressSize, hcount] at hfits hfull
  rw [hcount, numeral_take_concat]
  by_cases hsize : bits.length + 1 ≤ start.addressSize.toNat
  · obtain ⟨hbuf, hlen⟩ := hfits hsize
    rw [hbuf, hlen, h.value, h.length, if_pos hsize]
    exact ⟨by omega, rfl⟩
  · obtain ⟨hbuf, hlen⟩ := hfull (Nat.lt_of_not_le hsize)
    rw [hbuf, hlen, h.value, h.length, if_neg hsize]
    exact ⟨by omega, rfl⟩

/-- A data bit that ends at the last edge adds itself to the frame, and completes it as the last one. -/
theorem FrameHolds.addBit {start s : State} {bits : List Bool} (b : Bool) (h : FrameHolds start bits s)
    (hroom : bits.length < 28) : FrameHolds start (bits ++ [b]) (dataBit b s.lastPos s.bitCount.toNat s) := by
  obtain ⟨hframe, hcount, hzero⟩ := h.open_of_room hroom
  obtain ⟨hlen, hbuf⟩ := h.append b hroom
  obtain ⟨new, hnew, hkinds⟩ := dataBit_adds b s.lastPos s.bitCount.toNat s
  have hlength : (bits ++ [b]).length = bits.length + 1 := List.length_append
  exact {
    consistent := dataBit_keeps_regs h.running hframe hzero h.consistent
    running := by simpa using h.running
    seeded := by simpa using h.seeded
    low := by simpa using h.low
    syncW := by simpa using h.syncW
    addressSize := by simpa using h.addressSize
    inFrame := by
      have hdone : bits.length + 1 + 1 = 29 ↔ ¬ bits.length + 1 < 28 := by omega
      rw [dataBit_toRegs, hlength, hcount]
      simp only [hdone, hframe, ite_not, Bool.if_false_right, Bool.and_true]
    count := by
      rw [dataBit_toRegs, hlength, hcount]
      exact (nextCount_toNat (by omega)).trans (by split <;> split <;> omega)
    length := by rw [dataBit_toRegs, hlength]; exact hlen
    value := by rw [dataBit_toRegs]; exact hbuf
    kinds := by
      rw [hnew, List.map_append, hkinds, h.kinds, hlength, hcount, h.addressSize, List.range_succ, List.flatMap_append,
        List.flatMap_singleton, List.append_assoc] }

/-- A cell adds its bit to the frame. -/
theorem FrameHolds.addCell {start s : State} {bits : List Bool} {c : BitCell} (h : FrameHolds start bits s)
    (hroom : bits.length < 28) (hlater : s.lastPos < c.fall) :
    FrameHolds start (bits ++ [c.bit]) (afterCell c s) := by
  have hlatched : FrameHolds start bits (latchEdge c.fall false s) :=
    { h with consistent := latchEdge_keeps_regs hlater h.consistent, low := rfl }
  exact hlatched.addBit c.bit hroom

/-- Cells one after another add their bits. -/
theorem FrameHolds.deliverCells {start : State} {cells : List BitCell} : ∀ {bits : List Bool} {s : State},
    FrameHolds start bits s → bits.length + cells.length ≤ 28 → CellsFollow start.syncW s.lastPos cells →
    ∃ t, deliverEdges (cells.flatMap BitCell.edges) s = .next t ∧
      FrameHolds start (bits ++ cells.map BitCell.bit) t := by
  induction cells with
  | nil => exact fun {bits s} h _ _ => ⟨s, rfl, by simpa using h⟩
  | cons c cs ih =>
    intro bits s h hroom ⟨hrise, hfall, hband, hrest⟩
    rw [List.length_cons] at hroom
    have hopen : bits.length < 28 := by omega
    obtain ⟨hframe, hcount, hzero⟩ := h.open_of_room hopen
    have hadded : FrameHolds start (bits ++ [c.bit]) (afterCell c s) :=
      h.addCell hopen (BitVec.lt_trans hrise hfall)
    obtain ⟨t, hrun, ht⟩ := ih hadded (by simp; omega) (by rwa [afterCell_lastPos])
    refine ⟨t, ?_, by simpa using ht⟩
    rw [List.flatMap_cons, deliverEdges_cell h.running h.seeded h.low hframe hzero (by omega) hrise hfall
      (h.syncW ▸ hband), hrun]

/-- Settles O35: the marker opens the frame and each of the 28 cells adds its bit; the invariant at 28 bits is the
completed frame. -/
theorem completeFrame : Obligations.CompleteFrame := by
  intro s marker markerBit cells hregs hforms hframe hzero hband hlength hfollow
  have hmarked : FrameHolds s [] (consumeMarker marker (latchEdge marker false s)) :=
    frameHolds_marker hforms hframe hzero hregs
  obtain ⟨t, hrun, ht⟩ := hmarked.deliverCells (by simp [hlength]) hfollow
  have hall : (cells.map BitCell.bit).length = 28 := by rw [List.length_map, hlength]
  rw [List.nil_append] at ht
  refine ⟨t, ?_, ht.running, ?_, ?_, ?_, ht.value, ?_⟩
  · exact (deliverEdges_cons (boundaryMarkerRecordsNoBit s marker markerBit hforms hframe hzero hband) _).trans hrun
  · rw [ht.inFrame, hall]; rfl
  · exact BitVec.eq_of_toNat_eq (by rw [ht.count, hall]; rfl)
  · rw [ht.length, hall, Nat.min_comm]
  · rw [ht.kinds, hall]

end Sys2Proof.Machine
end

