-- ==== Sys2Proof/Proofs/HostText.lean ====
section
/-! The duration formatter's bands and units by bounds on the duration (spec/43_duration_formatter.md R191, R192), and
the one band and unit that a sync width reaches (R194). -/

namespace Sys2Proof.Machine

/-- Below 1 in the higher unit, the frequency is in the lower one (spec/43_duration_formatter.md R192). -/
theorem frequencyIn_of_lt {payload rate hiHz : Nat} (h : rate < hiHz * payload) (lo hi : FreqUnit) :
    frequencyIn payload rate lo hi hiHz = (lo, ⟨rate * 1000, hiHz * payload⟩) :=
  if_pos h

/-- The milliseconds band: at least a thousandth of a second and below one (spec/43_duration_formatter.md R191). -/
theorem formatDuration_of_milliseconds {payload rate : Nat} (hbelow : payload < rate)
    (hreach : rate ≤ 10 ^ 3 * payload) :
    formatDuration payload rate =
      durationIn .milliseconds (10 ^ 3) payload rate (frequencyIn payload rate .hz .khz (10 ^ 3)) := by
  have hvalid : ¬ (payload = 0 ∨ rate = 0) := by omega
  rw [formatDuration, if_neg hvalid, if_neg (Nat.not_le_of_lt hbelow), if_pos hreach]

/-- A sync width is shorter than a second and longer than a millisecond (spec/43_duration_formatter.md R194). -/
theorem bounds_of_syncWindow {rate : BitVec 32} {width : Pos} (h : syncWindow rate width = true) :
    width.toNat < rate.toNat ∧ rate.toNat < 10 ^ 3 * width.toNat := by
  obtain ⟨hnarrow, hwide⟩ := (syncWindow_iff rate width).mp h
  omega

/-- Settles O50: the sync window lies in the milliseconds band, and above a millisecond the reciprocal is below
1 kHz. -/
theorem syncDurationIsInMilliseconds : Obligations.SyncDurationIsInMilliseconds := by
  intro rate width hwindow
  obtain ⟨hsecond, hmillisecond⟩ := bounds_of_syncWindow hwindow
  have hband := formatDuration_of_milliseconds hsecond hmillisecond.le
  rw [frequencyIn_of_lt hmillisecond] at hband
  exact ⟨_, hband, rfl, rfl⟩

end Sys2Proof.Machine
end

