-- ==== Sys2Proof/Proofs/SessionControl.lean ====
section
/-! Session control (spec/44_session_control.md R210 to R215): what each command does in the RUN_STATE that accepts it,
what FAULT keeps, and the configuration that a session keeps. -/

namespace Sys2Proof.Machine

/-! ### Commands in the RUN_STATE that accepts them -/

/-- Settles O12: CONFIG accepts SETRATE, which has no check of its own. -/
theorem setrateWritesSampleRate : Obligations.SetrateWritesSampleRate :=
  fun _ _ hconfig => congrArg Host.Outcome.next (whenAccepted_of_accepting hconfig nofun)

/-- Settles O13: CONFIG accepts SETASIZE, which has no check of its own. -/
theorem setasizeWritesAddressSize : Obligations.SetasizeWritesAddressSize :=
  fun _ _ hconfig => congrArg Host.Outcome.next (whenAccepted_of_accepting hconfig nofun)

/-- In CONFIG what START does is `beginSession`, whose check of the sample rate comes after the state's. -/
theorem exec_start_of_config {s : State} (hconfig : s.runState = .config) :
    exec .start s = .next (beginSession (encode .start) s) :=
  congrArg Host.Outcome.next (whenAccepted_of_accepting hconfig nofun)

/-- Settles O14: CONFIG accepts START, and a sample rate passes its one check. -/
theorem startOpensSession : Obligations.StartOpensSession := by
  intro s hconfig hrate
  rw [exec_start_of_config hconfig, beginSession, if_neg hrate]
  rfl

/-- Settles O15: RUN accepts EOS, which does not ask whether a frame is open. -/
theorem eosClosesSession : Obligations.EosClosesSession :=
  fun _ hrun => congrArg Host.Outcome.next (whenAccepted_of_accepting hrun nofun)

/-! ### Words in FAULT -/

/-- In FAULT every command is dropped (spec/44_session_control.md R215). -/
theorem exec_of_fault {s : State} (hfault : s.runState = .fault) (i : Instr) : exec i s = .next s := by
  cases i <;> exact congrArg Host.Outcome.next (whenAccepted_of_fault hfault)

/-- In FAULT a word that is no command is dropped too (spec/44_session_control.md R215). -/
theorem illegalCommand_of_fault {s : State} (hfault : s.runState = .fault) (w : CmdWord) : illegalCommand w s = s :=
  if_pos hfault

/-- In FAULT an offered word, whether it decodes or not, is consumed and nothing else changes. -/
theorem step_of_offered_fault {s : State} {w : CmdWord} {ws : List CmdWord} {ts : List Turn}
    (hoffered : Offered s w ws ts) (hfault : s.runState = .fault) :
    step s = .next { s with turns := ts, cmdIn := ws } := by
  have haccepted : ({ s with turns := ts, cmdIn := ws } : State).runState = .fault := hfault
  cases hdecode : decode w with
  | ok i => rw [step_of_offered_ok hoffered hdecode, exec_of_fault haccepted]
  | error e => rw [step_of_offered_error hoffered hdecode, illegalCommand_of_fault haccepted]

/-! ### Steps that do not serve the reset input -/

/-- A step on no turn of the reset input leaves the registers alone, or runs an accepted word from them. -/
theorem step_keeps_regs_or_runs {s t : State} (h : step s = .next t)
    (hreset : ∀ cmds ts, s.turns ≠ .reset cmds :: ts) :
    t.toRegs = s.toRegs ∨
    ∃ u : State, ((∃ i, exec i u = .next t) ∨ ∃ w, t = illegalCommand w u) ∧ u.toRegs = s.toRegs := by
  rcases step_cases h with ⟨-, rfl⟩ | ⟨ts, -, rfl⟩ | ⟨cmds, ts, hturn, -⟩ | ⟨ts, -, -, rfl⟩ |
    ⟨w, ws, ts, -, -, -, ⟨i, -, hexec⟩ | ⟨e, -, hillegal⟩⟩
  · exact .inl rfl
  · exact .inl (takeRecord_effect _).1
  · exact absurd hturn (hreset cmds ts)
  · exact .inl rfl
  · exact .inr ⟨_, .inl ⟨i, hexec⟩, rfl⟩
  · exact .inr ⟨_, .inr ⟨w, hillegal⟩, rfl⟩

/-- In FAULT no step but one that serves the reset input changes a register. -/
theorem step_keeps_regs_of_fault {s t : State} (hfault : s.runState = .fault) (h : step s = .next t)
    (hreset : ∀ cmds ts, s.turns ≠ .reset cmds :: ts) : t.toRegs = s.toRegs := by
  rcases step_keeps_regs_or_runs h hreset with hregs | ⟨u, hword, hregs⟩
  · exact hregs
  · rw [← hregs] at hfault
    rcases hword with ⟨i, hexec⟩ | ⟨w, rfl⟩
    · rw [exec_of_fault hfault, Host.Outcome.next.injEq] at hexec
      rw [← hexec, hregs]
    · rw [illegalCommand_of_fault hfault, hregs]

/-- Settles O18: a step that leaves FAULT changes RUN_STATE, so it served the reset input. -/
theorem faultStateDropsWords : Obligations.FaultStateDropsWords := by
  refine ⟨fun _ _ _ _ => step_of_offered_fault, fun s t hfault h hleft => ?_, fun _ _ => step_keeps_regs_of_fault⟩
  by_contra hnone
  have hregs := step_keeps_regs_of_fault hfault h fun cmds ts hturn => hnone ⟨cmds, ts, hturn⟩
  exact hleft (hregs ▸ hfault)

/-! ### The configuration of a session -/

/-- In RUN no command changes the configuration: only CONFIG accepts SETRATE and SETASIZE (spec/44_session_control.md
R210, R211, R214). -/
theorem exec_keeps_configuration {i : Instr} {s t : State} (heffect : ExecEffect s i t) (hrun : s.runState = .run) :
    t.sampleRate = s.sampleRate ∧ t.addressSize = s.addressSize := by
  cases heffect with
  | dropped => exact ⟨rfl, rfl⟩
  | faulted => exact ⟨rfl, rfl⟩
  | rateSet hconfig => simp [hrun] at hconfig
  | sizeSet hconfig => simp [hrun] at hconfig
  | opened => exact ⟨rfl, rfl⟩
  | closed => exact ⟨rfl, rfl⟩
  | seeded => exact ⟨rfl, rfl⟩
  | pulsed _ _ _ hpulse =>
    obtain ⟨hrate, hsize, -⟩ := hpulse.frame
    exact ⟨hrate, hsize⟩

/-- An illegal word never changes the configuration: fault entry writes no configuration register
(spec/60_exceptions.md R247). -/
theorem illegalCommand_keeps_configuration (w : CmdWord) (s : State) :
    (illegalCommand w s).sampleRate = s.sampleRate ∧ (illegalCommand w s).addressSize = s.addressSize := by
  rcases illegalCommand_cases w s with ⟨-, hdropped⟩ | ⟨-, hraised⟩
  · rw [hdropped]
    exact ⟨rfl, rfl⟩
  · rw [hraised]
    exact ⟨raiseFault_sampleRate _ _ _, raiseFault_addressSize _ _ _⟩

/-- Settles O46: a step other than reset keeps the registers or runs a word, and no word changes the configuration in
RUN. -/
theorem configurationFixedInSession : Obligations.ConfigurationFixedInSession := by
  intro s t hrun h hreset
  rcases step_keeps_regs_or_runs h hreset with hregs | ⟨u, hword, hregs⟩
  · rw [hregs]
    exact ⟨rfl, rfl⟩
  · rw [← hregs] at hrun ⊢
    rcases hword with ⟨i, hexec⟩ | ⟨w, rfl⟩
    · exact exec_keeps_configuration (exec_effect hexec) hrun
    · exact illegalCommand_keeps_configuration w u

end Sys2Proof.Machine
end

