-- ==== Sys2Proof/Proofs/Exceptions.lean ====
section
/-! The exceptions (spec/60_exceptions.md R241 to R255): the two checks every command shares, the checks of its own,
the order between them, and the wait that is no exception. -/

namespace Sys2Proof.Machine

/-! ### Every command as two shared checks and a body -/

/-- What a command does once its RUN_STATE has accepted it, its own checks included. -/
def commandBody : Instr → State → State
  | .setrate rate => setSampleRate rate
  | .setasize size => setAddressSize size
  | .start => beginSession (encode .start)
  | .edge pos lvl => deliverEdge (encode (.edge pos lvl)) pos lvl
  | .eos => closeSession

/-- Every command makes the same two checks before its own (spec/60_exceptions.md R248). -/
theorem exec_eq_whenAccepted (i : Instr) (s : State) :
    exec i s = .next (whenAccepted (homeState i) (encode i) (commandBody i) s) := by
  cases i <;> rfl

theorem homeState_ne_fault (i : Instr) : homeState i ≠ .fault := by
  cases i <;> exact nofun

theorem exec_of_home {i : Instr} {s : State} (hhome : s.runState = homeState i) :
    exec i s = .next (commandBody i s) := by
  rw [exec_eq_whenAccepted, whenAccepted_of_accepting hhome (homeState_ne_fault i)]

/-- Outside its home state and FAULT a command is fault entry (spec/60_exceptions.md R245). -/
theorem exec_of_wrong_state {i : Instr} {s : State} (hfault : s.runState ≠ .fault) (haway : s.runState ≠ homeState i) :
    exec i s = .next (raiseFault .sequenceError (encode i) s) := by
  rw [exec_eq_whenAccepted, whenAccepted_of_wrong hfault haway]

/-- Settles O17: an accepted legal word runs its command, and the word is the command's encoding. -/
theorem sequenceErrorOutsideHomeState : Obligations.SequenceErrorOutsideHomeState := by
  refine ⟨fun s w ws ts i hoffered hdecode hfault haway => ?_, fun _ => rfl, fun _ => rfl, rfl, fun _ _ => rfl, rfl⟩
  obtain rfl := decode_eq_ok_iff.mp hdecode
  exact (step_of_offered_ok hoffered hdecode).trans (exec_of_wrong_state hfault haway)

/-- Settles O16: CONFIG accepts START and the check of the sample rate fails; an EDGE that passes its checks is in
RUN, and any other is dropped or is fault entry. -/
theorem startWithoutRateFaults : Obligations.StartWithoutRateFaults := by
  constructor
  · intro s hconfig hrate
    have hword : encode .start = 0x300000000000000000#72 := by decide
    rw [exec_start_of_config hconfig, beginSession, if_pos hrate, hword]
    rfl
  · intro s pos lvl t haway h
    cases exec_effect h with
    | dropped => exact ⟨rfl, rfl, rfl, rfl⟩
    | faulted => exact ⟨rfl, rfl, rfl, rfl⟩
    | seeded hrun => exact absurd hrun haway
    | pulsed hrun => exact absurd hrun haway

/-! ### The order of the checks, read by command -/

/-- The first check of its own that a command fails in its home state: the rate of START, then the position of an EDGE
before its level (spec/60_exceptions.md R248). -/
def commandFault (r : Regs) : Instr → Option FaultCode
  | .start => if r.sampleRate = 0 then some .configError else none
  | .edge pos lvl =>
    if r.seeded = true ∧ pos ≤ r.lastPos then some .malformedOrder
    else if lvl = r.lastLvl then some .malformedLevel
    else none
  | _ => none

/-- A command's opcode is accepted in the command's home state. -/
theorem acceptsIn_encode (i : Instr) : acceptsIn (wordOp (encode i)) = homeState i := by
  cases i <;> simp [encode, acceptsIn, homeState]

theorem faultFor_of_fault {r : Regs} (hfault : r.runState = .fault) (w : CmdWord) : faultFor w r = none :=
  if_pos hfault

theorem faultFor_of_illegal {r : Regs} {w : CmdWord} (hfault : r.runState ≠ .fault) (hillegal : legal w = false) :
    faultFor w r = some .illegalCommand := by
  rw [faultFor, if_neg hfault, if_pos hillegal]

theorem faultFor_of_wrong_state {r : Regs} {i : Instr} (hfault : r.runState ≠ .fault)
    (haway : r.runState ≠ homeState i) : faultFor (encode i) r = some .sequenceError := by
  rw [← acceptsIn_encode] at haway
  simp only [faultFor, legal_encode, hfault, if_pos haway, reduceCtorEq, if_false]

/-- In its home state a command takes the fault of its own first failing check. -/
theorem faultFor_of_home {r : Regs} {i : Instr} (hhome : r.runState = homeState i) :
    faultFor (encode i) r = commandFault r i := by
  have hfault : r.runState ≠ .fault := hhome ▸ homeState_ne_fault i
  have haccepted : ¬ r.runState ≠ acceptsIn (wordOp (encode i)) := by rw [acceptsIn_encode]; exact not_not.mpr hhome
  simp only [faultFor, legal_encode, if_neg hfault, if_neg haccepted, reduceCtorEq, if_false]
  cases i with
  | setrate rate => simp [encode, commandFault]
  | setasize size => simp [encode, commandFault]
  | start => simp [encode, commandFault]
  | edge pos lvl => cases hseeded : r.seeded <;> simp [encode, commandFault, hseeded]
  | eos => simp [encode, commandFault]

/-! ### What a word does, by the fault it takes -/

/-- The state a word leaves, by the fault it takes: fault entry with that code, or no fault register changed and FAULT
neither entered nor left (spec/60_exceptions.md R247). -/
inductive FaultOutcome (w : CmdWord) (s : State) : Option FaultCode → State → Prop
  | taken {c : FaultCode} (hcode : c ≠ .none) : FaultOutcome w s (some c) (raiseFault c w s)
  | spared {t : State} (hcode : t.faultCode = s.faultCode) (hcmd : t.faultCmd = s.faultCmd)
      (hstate : t.runState = .fault ↔ s.runState = .fault) : FaultOutcome w s none t

/-- The assembler writes no fault register and not RUN_STATE. -/
theorem assemble_keeps_fault_registers (c : PulseClass) (p : Pulse) (s : State) :
    (assemble c p s).faultCode = s.faultCode ∧ (assemble c p s).faultCmd = s.faultCmd ∧
    (assemble c p s).runState = s.runState := by
  rcases assemble_cases c p s with ⟨-, h⟩ | ⟨-, h⟩ | ⟨-, h⟩ | ⟨b, -, ⟨-, h⟩ | ⟨-, h⟩⟩ <;> simp [h]

theorem processPulse_keeps_fault_registers (pos : Pos) (lvl : Bool) (s : State) :
    (processPulse pos lvl s).faultCode = s.faultCode ∧ (processPulse pos lvl s).faultCmd = s.faultCmd ∧
    (processPulse pos lvl s).runState = s.runState :=
  assemble_keeps_fault_registers _ _ (latchEdge pos lvl s)

/-- An accepted EDGE takes the fault of its position, else of its level; seeding and pulses take none. -/
theorem deliverEdge_faultOutcome (w : CmdWord) (pos : Pos) (lvl : Bool) (s : State) :
    FaultOutcome w s (commandFault s.toRegs (.edge pos lvl)) (deliverEdge w pos lvl s) := by
  rw [commandFault]
  split_ifs with hrepeated hlvl
  · obtain ⟨hseeded, hpos⟩ := hrepeated
    rw [deliverEdge_of_repeatedPosition hseeded hpos]
    exact .taken nofun
  all_goals have hlater (hseeded : s.seeded = true) : s.lastPos < pos :=
    BitVec.not_le.mp fun hpos => hrepeated ⟨hseeded, hpos⟩
  · rw [hlvl, deliverEdge_of_repeatedLevel hlater]
    exact .taken nofun
  · cases hseeded : s.seeded with
    | false =>
      rw [deliverEdge_of_first hseeded, if_neg hlvl]
      exact .spared rfl rfl .rfl
    | true =>
      rw [deliverEdge_of_later hseeded (hlater hseeded), if_neg hlvl]
      obtain ⟨hcode, hcmd, hstate⟩ := processPulse_keeps_fault_registers pos lvl s
      exact .spared hcode hcmd (by rw [hstate])

/-- In its home state a command does what its own checks say. -/
theorem commandBody_faultOutcome {i : Instr} {s : State} (hhome : s.runState = homeState i) :
    FaultOutcome (encode i) s (commandFault s.toRegs i) (commandBody i s) := by
  cases i with
  | setrate rate => exact .spared rfl rfl .rfl
  | setasize size => exact .spared rfl rfl .rfl
  | start =>
    rcases beginSession_cases (encode .start) s with ⟨hrate, h⟩ | ⟨hrate, h⟩
    · rw [commandBody, h, commandFault, if_pos hrate]
      exact .taken nofun
    · rw [commandBody, h, commandFault, if_neg hrate]
      exact .spared rfl rfl (by simp [hhome, homeState])
  | edge pos lvl => exact deliverEdge_faultOutcome _ pos lvl s
  | eos => exact .spared rfl rfl (by simp [commandBody, hhome, homeState])

/-- In every RUN_STATE a command does what the order of checks of spec/60_exceptions.md R248 says of its word. -/
theorem exec_faultOutcome (i : Instr) (s : State) :
    ∃ t, exec i s = .next t ∧ FaultOutcome (encode i) s (faultFor (encode i) s.toRegs) t := by
  by_cases hfault : s.runState = .fault
  · rw [exec_of_fault hfault, faultFor_of_fault hfault]
    exact ⟨s, rfl, .spared rfl rfl .rfl⟩
  by_cases hhome : s.runState = homeState i
  · rw [exec_of_home hhome, faultFor_of_home hhome]
    exact ⟨_, rfl, commandBody_faultOutcome hhome⟩
  · rw [exec_of_wrong_state hfault hhome, faultFor_of_wrong_state hfault hhome]
    exact ⟨_, rfl, .taken nofun⟩

/-- An accepted word that is no command takes ILLEGAL_COMMAND, or in FAULT nothing (spec/60_exceptions.md R244). -/
theorem illegalCommand_faultOutcome {w : CmdWord} (hillegal : legal w = false) (s : State) :
    FaultOutcome w s (faultFor w s.toRegs) (illegalCommand w s) := by
  rcases illegalCommand_cases w s with ⟨hfault, h⟩ | ⟨hfault, h⟩
  · rw [h, faultFor_of_fault hfault]
    exact .spared rfl rfl .rfl
  · rw [h, faultFor_of_illegal hfault hillegal]
    exact .taken nofun

/-- The table and the decoder refuse the same words (spec/30_encoding.md R83). -/
theorem legal_eq_false_of_decode {w : CmdWord} {e : DecodeReject} (h : decode w = .error e) : legal w = false := by
  by_contra hlegal
  obtain ⟨i, hi⟩ := (decodes_iff_fieldsLegal w).mpr ((legal_iff_fieldsLegal w).mp (Bool.eq_true_of_not_eq_false hlegal))
  rw [h] at hi
  cases hi

/-- The step that accepts a word, legal or not, does what the order of checks says of it. -/
theorem step_faultOutcome {s : State} {w : CmdWord} {ws : List CmdWord} {ts : List Turn}
    (hoffered : Offered s w ws ts) :
    ∃ t, step s = .next t ∧ FaultOutcome w { s with turns := ts, cmdIn := ws } (faultFor w s.toRegs) t := by
  cases hdecode : decode w with
  | ok i =>
    rw [step_of_offered_ok hoffered hdecode, ← decode_eq_ok_iff.mp hdecode]
    exact exec_faultOutcome i _
  | error e =>
    rw [step_of_offered_error hoffered hdecode]
    exact ⟨_, rfl, illegalCommand_faultOutcome (legal_eq_false_of_decode hdecode) _⟩

/-- Settles O22: the outcome of an accepted word, read by the fault it takes. -/
theorem faultPriorityAndPrecision : Obligations.FaultPriorityAndPrecision := by
  intro s w ws ts hoffered
  obtain ⟨t, hstep, houtcome⟩ := step_faultOutcome hoffered
  constructor
  · intro c hc
    rw [hc] at houtcome
    cases houtcome with
    | taken hcode => exact ⟨hstep, hcode, rfl⟩
  · intro hnone
    rw [hnone] at houtcome
    cases houtcome with
    | spared hcode hcmd hstate => exact ⟨t, hstep, hcode, hcmd, hstate⟩

/-! ### Waiting is no exception -/

/-- Settles O43: each step of the run finds no turn and answers the state it started from. -/
theorem waitingKeepsState : Obligations.WaitingKeepsState := by
  intro n s hturns
  induction n with
  | zero => rfl
  | succ n ih => rw [run_succ_of_step (step_of_no_turn hturns), ih]

end Sys2Proof.Machine
end

