-- ==== Sys2Proof/Proofs/Reset.lean ====
section
/-! Reset (spec/70_reset_and_hazards.md R270, R271): the value of every register, and the turn of the reset input in any
state. -/

namespace Sys2Proof.Machine

/-- The reset input is served at once, whatever is presented or untaken (spec/70_reset_and_hazards.md R271). -/
theorem step_of_reset {s : State} {cmds : List CmdWord} {ts : List Turn} (ht : s.turns = .reset cmds :: ts) :
    step s = .next (resetAction cmds { s with turns := ts }) := by
  simp [step, nextCommand, ht]

/-- Outside FAULT the fault output is low (spec/20_memory.md R64). -/
theorem faultOutput_eq_false {r : Regs} (h : r.runState ≠ .fault) : faultOutput r = false :=
  Bool.eq_false_iff.mpr (mt (faultOutputLevel r).1.mp h)

/-- Settles O39: each register by its value in the reset state, which is in CONFIG, so the fault output is low; the
step by the rule of the reset turn. -/
theorem resetValues : Obligations.ResetValues :=
  ⟨⟨rfl, rfl, rfl, rfl, rfl, rfl, rfl, rfl, rfl, rfl, rfl, rfl, rfl, rfl, rfl, rfl, rfl, rfl,
    faultOutput_eq_false nofun⟩, fun _ _ _ => step_of_reset⟩

end Sys2Proof.Machine
end
